-- ==== Sys2Proof/Word.lean ====
section
/-! DEFINITION. The word type and its plainest arithmetic: the 32-bit register value of R6 and R42 and the zero
extension and low mask of R10 and R11. -/

namespace Sys2Proof

/-- The register value and every numeric port: an unsigned integer of 32 bits (R6, R9, R42). -/
abbrev Word := BitVec 32

/-- `zext_32(v)` of R11. -/
def zext {w : Nat} (v : BitVec w) : Word := v.setWidth 32

/-- The word whose low `width` bits are 1 and whose other bits are 0: the `2^width - 1` of R78. -/
def lowMask (width : Nat) : Word := BitVec.ofNat 32 (2 ^ width - 1)

end Sys2Proof
end

