-- ==== Sys2Proof/Syntax.lean ====
section
/-! DEFINITION. The instruction type: one constructor per row of spec/opcode_table.json (R61). -/

namespace Sys2Proof

/-- The operations of the TCRC, one for each value of the 3-bit `op` input (R60, R61). The operands of an operation are
the values of the input ports, which stand in the state and not in the instruction: the encoding has no operand bits. -/
inductive Instr where
  /-- `T55X7.ENC`, op 0 (R110). -/
  | t55x7Enc
  /-- `T55X7.DEC`, op 1 (R111). -/
  | t55x7Dec
  /-- `T5555.ENC`, op 2 (R150). -/
  | t5555Enc
  /-- `T5555.DEC`, op 3 (R151). -/
  | t5555Dec
  /-- `EM4X05.ENC`, op 4 (R180). -/
  | em4x05Enc
  /-- `EM4X05.DEC`, op 5 (R181). -/
  | em4x05Dec
  /-- `T55X7.CLKBIT`, op 6 (R112). -/
  | t55x7Clkbit
  /-- The reserved operation, op 7 (R62, R203). -/
  | reservedOp
  deriving DecidableEq, Repr

end Sys2Proof
end

