-- ==== Sys2Proof/Config.lean ====
section
/-! DEFINITION. What is fixed for one TCRC: its three named parameters (R8), and the names and row types in which the
constant tables of R22 are written. The tables themselves stand in Machine/Tables.lean and Machine/Layout.lean. The spec
leaves no value of this block open (R25: "no don't-care bits"), so there is no free value here. -/

namespace Sys2Proof

/-- The named parameters of R8. They are plain numbers, and `Config.legal` (WellFormed.lean) is the legal-value check. -/
structure Config where
  /-- `EM4X05_NB_MIN`: the smallest `num_blocks` of the EM4x05 codec. -/
  nbMin : Nat
  /-- `T5555_FW_BIT`: the bit position of the T5555 fast-write flag. -/
  fwBit : Nat
  /-- `T5555_PS_BIT`: the bit position of the T5555 page-select flag. -/
  psBit : Nat
  deriving DecidableEq, Repr

/-- The default parameter values of R8. -/
def Config.default : Config := { nbMin := 0, fwBit := 18, psBit := 19 }

/-- The three chip families of R2. -/
inductive Family where
  | t55x7
  | t5555
  | em4x05
  deriving DecidableEq, Repr

/-- The modulation symbols of R63. -/
inductive Modulation where
  | direct
  | psk1
  | psk2
  | psk3
  | fsk1
  | fsk2
  | fsk1a
  | fsk2a
  | manchester
  | biphase
  | diphase
  | miller
  deriving DecidableEq, Repr

/-- The values of the `status` output (R200). -/
inductive Status where
  | ok
  | invalidField
  | unrecognizedField
  | illegalOp
  deriving DecidableEq, Repr

/-- The field names of R65 to R67, each under its assembler name. -/
inductive FieldName where
  | por
  | st
  | pwd
  | maxblk
  | aor
  | psk
  | mod
  | xmode
  | div
  | inv
  | fw
  | ps
  | nblocks
  | rl
  | rhl
  | wl
  | whl
  | raw
  | dis
  | rtf
  deriving DecidableEq, Repr

/-- The "field code" column of R65 to R67: which port a field is read from and written to (R64), and by which rule its
value and its field code are turned into each other. -/
inductive Codec where
  /-- A boolean field: `p_flags[id]` and `q_flags[id]` (R64). -/
  | flag
  /-- A 3-bit max block, on `p_maxblk` and `q_maxblk` (R106). -/
  | maxblk
  /-- A PSK carrier, on `p_psk` and `q_psk` (R72). -/
  | psk
  /-- The T55x7 modulation, on `p_mod` and `q_mod` (R68). -/
  | modT55x7
  /-- The T5555 modulation, on `p_mod` and `q_mod` (R69). -/
  | modT5555
  /-- The EM4x05 modulation, on `p_mod` and `q_mod` (R70). -/
  | modEm4x05
  /-- The T55x7 clock divisor, on `p_div` and `q_div` (R71). -/
  | clock
  /-- The computed six-bit bit rate, on `p_div` and `q_div` (R73). -/
  | rate6
  /-- The biased block count, on `p_nblocks` and `q_nblocks` (R74). -/
  | nblocks
  deriving DecidableEq, Repr

/-- One row of a register layout table (R65 to R67). -/
structure Field where
  id    : Nat
  name  : FieldName
  width : Nat
  shift : Nat
  codec : Codec
  deriving DecidableEq, Repr

/-- A register layout: the rows of its table, in order of ascending bit position (R64). -/
abbrev Layout := List Field

/-- A decode helper's result (R11): a recognised value, or the raw bits of an unrecognised field, zero-extended. -/
inductive Reading where
  | known   (v : Word)
  | unknown (raw : Word)
  deriving DecidableEq, Repr

end Sys2Proof
end

