-- ==== Sys2Proof/WellFormed.lean ====
section
/-! DEFINITION. The checks: of an instruction, of the parameters (R8) and of a register layout (R76). -/

namespace Sys2Proof

/-- Every instruction is well-formed: the encoding carries no operand that could be out of range (R60), and each of the
eight values of `op` selects a row (R61). -/
def Instr.wellFormed : Instr → Bool
  | .t55x7Enc | .t55x7Dec | .t5555Enc | .t5555Dec | .em4x05Enc | .em4x05Dec | .t55x7Clkbit | .reservedOp => true

/-- The legal-value check of R8. -/
def Config.legal (c : Config) : Bool :=
  decide (c.nbMin ≤ 1)
    && (decide (18 ≤ c.fwBit) && decide (c.fwBit ≤ 31))
    && (decide (18 ≤ c.psBit) && decide (c.psBit ≤ 31))
    && decide (c.fwBit ≠ c.psBit)

/-- The bit ranges of two fields have no bit in common. -/
def Field.disjoint (f g : Field) : Bool :=
  decide (f.shift + f.width ≤ g.shift) || decide (g.shift + g.width ≤ f.shift)

/-- A field has at least one bit and lies within bits 31:0. -/
def Field.inWord (f : Field) : Bool :=
  decide (0 < f.width) && decide (f.shift + f.width ≤ 32)

/-- The layout check of R76: every field within bits 31:0, and the fields' bit ranges pairwise disjoint. -/
def Layout.wellFormed : Layout → Bool
  | [] => true
  | f :: fs => f.inWord && fs.all f.disjoint && Layout.wellFormed fs

end Sys2Proof
end

