-- ==== Sys2Proof/Decode.lean ====
section
/-! DEFINITION. The decode of the 3-bit `op` input (R61), the encoder, and the reading of a word of
spec/opcode_table.json. There are no instruction words (R60): an operation is `op` and the values on the operand ports,
so the decode takes the three bits of `op` and nothing else. It is total, and it rejects nothing: the one code with no
operation behind it, 7, has a row of its own, which answers by its own name (R62). -/

namespace Sys2Proof

/-- The decode of `op`: the rows of the table of R61. -/
def decodeOp (op : BitVec 3) : Instr :=
  match op.toNat with
  | 0 => .t55x7Enc
  | 1 => .t55x7Dec
  | 2 => .t5555Enc
  | 3 => .t5555Dec
  | 4 => .em4x05Enc
  | 5 => .em4x05Dec
  | 6 => .t55x7Clkbit
  | _ => .reservedOp

/-- The value of `op` that selects an operation (R61). -/
def encodeOp : Instr → BitVec 3
  | .t55x7Enc    => 0b000
  | .t55x7Dec    => 0b001
  | .t5555Enc    => 0b010
  | .t5555Dec    => 0b011
  | .em4x05Enc   => 0b100
  | .em4x05Dec   => 0b101
  | .t55x7Clkbit => 0b110
  | .reservedOp  => 0b111

/-- The `op` value of a word of spec/opcode_table.json, of which the table gives `nbits` bits: its bits 2:0, the only
ones the rows' mask (7) names. DESIGN CHOICE (log entry 6): the bits above them reach no input of the block, and are
not looked at. -/
def opOfTableWord (nbits w : Nat) : BitVec 3 := BitVec.ofNat 3 (w % 2 ^ nbits)

/-- The instruction the decoder reads from a word of spec/opcode_table.json. -/
def decodeTableWord (nbits w : Nat) : Option Instr := some (decodeOp (opOfTableWord nbits w))

end Sys2Proof
end

