-- ==== Sys2Proof/Machine/State.lean ====
section
/-! DEFINITION. The state as plain data, the reasons a step can stop, and the machine before its first evaluation.

The TCRC is combinational and has no architectural state of its own (R20): no register, no program counter, no memory.
What the spec gives it, and this state holds, is its parameters (R8), its input ports (R23), its output ports (R24), the
caller's program and the outputs the run leaves (R239). No operation reads an output of an earlier evaluation. -/

namespace Sys2Proof.Machine

/-- The input ports, with the widths of R23. One value of this type is one operation in the format of R60. -/
structure Inputs where
  op       : BitVec 3
  regIn    : Word
  pMod     : BitVec 4
  pDiv     : Word
  pPsk     : Word
  pMaxblk  : Word
  pNblocks : Word
  pFlags   : BitVec 16
  deriving DecidableEq, Repr

/-- Every input port at 0: the value R83 gives a port that nothing sets. -/
def Inputs.zero : Inputs :=
  { op := 0, regIn := 0, pMod := 0, pDiv := 0, pPsk := 0, pMaxblk := 0, pNblocks := 0, pFlags := 0 }

/-- The output ports, with the widths of R24. `status` is one of the four values of R200, and `Status.code` gives its two
bits. -/
structure Outputs where
  status   : Status
  err      : BitVec 16
  regOut   : Word
  qMod     : BitVec 5
  qDiv     : Word
  qPsk     : Word
  qMaxblk  : Word
  qNblocks : Word
  qFlags   : BitVec 16
  qResidue : Word
  deriving DecidableEq, Repr

/-- Every output port at 0, the value R25 gives an output that the operation does not write. Status 0 is OK. -/
def Outputs.zero : Outputs :=
  { status := .ok, err := 0, regOut := 0, qMod := 0, qDiv := 0, qPsk := 0, qMaxblk := 0, qNblocks := 0, qFlags := 0,
    qResidue := 0 }

/-- The state of the machine. -/
structure State where
  /-- The parameters of R8, fixed when the block is instantiated; no step changes them (DESIGN CHOICE, log entry 2). -/
  config : Config
  /-- What the caller drives on the input ports (R23). -/
  inp : Inputs
  /-- The evaluations of the caller's program that are still to be issued, the next one first (R239; DESIGN
  CHOICE, log entry 4). -/
  program : List Inputs
  /-- The outputs of every evaluation so far, oldest first: the end state of R239. The last entry is what the output ports
  present (R24); with no entry they carry no value (R231). -/
  results : List Outputs
  deriving DecidableEq, Repr

/-- Why the machine stops. -/
inductive Fault where
  /-- Raised by `step` when the caller's program holds no further evaluation: the end of the run (R239). No instruction
  raises it. Safe: nothing is claimed of a step past the end. -/
  | runEnded
  /-- Raised by `readOutputs` when no evaluation has produced outputs (R231, D26: a fault in the model). No instruction
  raises it. Safe: the ports carry no value there. -/
  | noEvaluation
  deriving DecidableEq, Repr

/-- Why there is no meaning. -/
inductive Refusal where
  /-- Raised by an arm of `exec` whose instruction has no meaning yet; no arm does. Safe. -/
  | notModelled (mnemonic : String)
  /-- Raised by every evaluation, and by `instantiate`, where the parameters fail the legal-value check (R8: a model given
  an illegal value must refuse to instantiate; R232). Safe: no such block exists. -/
  | illegalParameters
  /-- Raised by the record view of the outputs of the reserved operation, which have no record (R28, R203). The
  evaluation itself is not refused: it presents ILLEGAL_OP (log entry 1). Safe. -/
  | illegalOp
  /-- Raised by the record view of outputs with status INVALID_FIELD, which no decode gives (R28; DESIGN CHOICE, log entry
  16). Safe. -/
  | noRecord
  /-- Raised by `reencode` for a decode that marked a field unrecognised: the record view cannot express such a field
  as an encode input (R114, I1 of spec/93). Safe. -/
  | unrecognisedField
  deriving DecidableEq, Repr

/-- The machine before its first evaluation: default parameters (R8), no program issued, no outputs (R231). There is no
reset input and nothing to initialise (R230). DESIGN CHOICE (log entry 3): the input ports, which the caller drives and
for which the spec states no value before the first evaluation, are 0. -/
def State.reset : State :=
  { config := Config.default, inp := Inputs.zero, program := [], results := [] }

end Sys2Proof.Machine
end

