-- ==== Sys2Proof/Machine/Tables.lean ====
section
/-! DEFINITION. The code tables of R22: symbol codes (R63), status codes (R200), and the field code tables of R68 to R72,
each written once and looked up in both directions. UNVERIFIED (log entries 8, 9, 10, 12, 13): the spec itself marks the rows it
takes from general knowledge, and a later audit replaces rows here and nowhere else. -/

namespace Sys2Proof.Machine

/-- The code a table gives a value, or none: the encode direction. -/
def codeOf {α β : Type} [DecidableEq α] : List (α × β) → α → Option β
  | [], _ => none
  | row :: rows, a => if row.1 = a then some row.2 else codeOf rows a

/-- The value a table gives a code, or none: the decode direction. -/
def valueOf {α β : Type} [DecidableEq β] : List (α × β) → β → Option α
  | [], _ => none
  | row :: rows, b => if row.2 = b then some row.1 else valueOf rows b

/-- Modulation symbol codes (R63). Codes 12 to 15 are reserved and have no row. -/
def symbolTable : List (Modulation × BitVec 4) :=
  [(.direct, 0), (.psk1, 1), (.psk2, 2), (.psk3, 3), (.fsk1, 4), (.fsk2, 5), (.fsk1a, 6), (.fsk2a, 7),
   (.manchester, 8), (.biphase, 9), (.diphase, 10), (.miller, 11)]

/-- The two bits of the `status` output (R200). -/
def statusCode : Status → BitVec 2
  | .ok                => 0
  | .invalidField      => 1
  | .unrecognizedField => 2
  | .illegalOp         => 3

/-- T55x7 modulation codes (R68). -/
def modT55x7Table : List (Modulation × BitVec 5) :=
  [(.direct, 0), (.psk1, 1), (.psk2, 2), (.psk3, 3), (.fsk1, 4), (.fsk2, 5), (.fsk1a, 6), (.fsk2a, 7),
   (.manchester, 8), (.biphase, 16), (.diphase, 24)]

/-- T5555 modulation codes (R69). -/
def modT5555Table : List (Modulation × BitVec 3) :=
  [(.manchester, 0), (.psk1, 1), (.psk2, 2), (.psk3, 3), (.fsk1, 4), (.fsk2, 5), (.biphase, 6), (.direct, 7)]

/-- EM4x05 modulation codes (R70). -/
def modEm4x05Table : List (Modulation × BitVec 4) :=
  [(.direct, 0), (.manchester, 1), (.biphase, 2), (.miller, 3), (.psk1, 4), (.psk2, 5), (.psk3, 6), (.fsk1, 7),
   (.fsk2, 8)]

/-- The T55x7 clock-divisor table (R71). -/
def clockTable : List (Word × BitVec 3) :=
  [(8, 0), (16, 1), (32, 2), (40, 3), (50, 4), (64, 5), (100, 6), (128, 7)]

/-- The PSK carrier code table (R72). -/
def pskTable : List (Word × BitVec 2) := [(2, 0), (4, 1), (8, 2)]

end Sys2Proof.Machine
end

