-- ==== Sys2Proof/Machine/Layout.lean ====
section
/-! DEFINITION. The three register layouts (R65, R66, R67), their field masks (R75), and which operation is of which kind
and family (R61). UNVERIFIED (log entries 7, 10, 11, 12): the spec marks most positions as general knowledge. -/

namespace Sys2Proof.Machine

/-- The T55x7 layout (R65). Bits 31:21, 8 and 2:1 are unassigned. -/
def t55x7Layout : Layout :=
  [{ id := 0, name := .por,    width := 1, shift := 0,  codec := .flag },
   { id := 1, name := .st,     width := 1, shift := 3,  codec := .flag },
   { id := 2, name := .pwd,    width := 1, shift := 4,  codec := .flag },
   { id := 3, name := .maxblk, width := 3, shift := 5,  codec := .maxblk },
   { id := 4, name := .aor,    width := 1, shift := 9,  codec := .flag },
   { id := 5, name := .psk,    width := 2, shift := 10, codec := .psk },
   { id := 6, name := .mod,    width := 5, shift := 12, codec := .modT55x7 },
   { id := 7, name := .xmode,  width := 1, shift := 17, codec := .flag },
   { id := 8, name := .div,    width := 3, shift := 18, codec := .clock }]

/-- The T5555 layout (R66), with the fast-write and page-select flags where the parameters of R8 put them. Bits 31:18
but for those two are unassigned. -/
def t5555Layout (c : Config) : Layout :=
  [{ id := 0, name := .st,     width := 1, shift := 0,  codec := .flag },
   { id := 1, name := .maxblk, width := 3, shift := 1,  codec := .maxblk },
   { id := 2, name := .mod,    width := 3, shift := 4,  codec := .modT5555 },
   { id := 3, name := .inv,    width := 1, shift := 7,  codec := .flag },
   { id := 4, name := .psk,    width := 2, shift := 8,  codec := .psk },
   { id := 5, name := .pwd,    width := 1, shift := 10, codec := .flag },
   { id := 6, name := .aor,    width := 1, shift := 11, codec := .flag },
   { id := 7, name := .div,    width := 6, shift := 12, codec := .rate6 },
   { id := 8, name := .fw,     width := 1, shift := c.fwBit, codec := .flag },
   { id := 9, name := .ps,     width := 1, shift := c.psBit, codec := .flag }]

/-- The EM4x05/EM4x69 layout (R67). Bits 31:25 and 13:12 are unassigned. -/
def em4x05Layout : Layout :=
  [{ id := 0,  name := .div,     width := 6, shift := 0,  codec := .rate6 },
   { id := 1,  name := .mod,     width := 4, shift := 6,  codec := .modEm4x05 },
   { id := 2,  name := .psk,     width := 2, shift := 10, codec := .psk },
   { id := 3,  name := .nblocks, width := 4, shift := 14, codec := .nblocks },
   { id := 4,  name := .rl,      width := 1, shift := 18, codec := .flag },
   { id := 5,  name := .rhl,     width := 1, shift := 19, codec := .flag },
   { id := 6,  name := .wl,      width := 1, shift := 20, codec := .flag },
   { id := 7,  name := .whl,     width := 1, shift := 21, codec := .flag },
   { id := 8,  name := .raw,     width := 1, shift := 22, codec := .flag },
   { id := 9,  name := .dis,     width := 1, shift := 23, codec := .flag },
   { id := 10, name := .rtf,     width := 1, shift := 24, codec := .flag }]

/-- The layout of a family, for the parameters given. -/
def layoutOf (c : Config) : Family → Layout
  | .t55x7  => t55x7Layout
  | .t5555  => t5555Layout c
  | .em4x05 => em4x05Layout

/-- The bits of one field, in place. -/
def fieldBits (f : Field) : Word := lowMask f.width <<< f.shift

/-- `FIELD_MASK_F` of R75: the OR of every field's bits. -/
def fieldMask : Layout → Word
  | [] => 0
  | f :: fs => fieldBits f ||| fieldMask fs

/-- What kind of operation an instruction is, and of which family (R61). -/
inductive Role where
  | encode (f : Family)
  | decode (f : Family)
  | clkbit
  | reserved
  deriving DecidableEq, Repr

/-- The kind and family of each row of R61. -/
def roleOf : Instr → Role
  | .t55x7Enc    => .encode .t55x7
  | .t55x7Dec    => .decode .t55x7
  | .t5555Enc    => .encode .t5555
  | .t5555Dec    => .decode .t5555
  | .em4x05Enc   => .encode .em4x05
  | .em4x05Dec   => .decode .em4x05
  | .t55x7Clkbit => .clkbit
  | .reservedOp  => .reserved

/-- The encode operation of a family. -/
def encodeInstr : Family → Instr
  | .t55x7  => .t55x7Enc
  | .t5555  => .t5555Enc
  | .em4x05 => .em4x05Enc

/-- The decode operation of a family. -/
def decodeInstr : Family → Instr
  | .t55x7  => .t55x7Dec
  | .t5555  => .t5555Dec
  | .em4x05 => .em4x05Dec

end Sys2Proof.Machine
end

