-- ==== Sys2Proof/Machine/Operands.lean ====
section
/-! DEFINITION. Every operand form: the helper functions that turn a port value into a field code and a field code into
a port value (R100 to R106, R140 to R143, R170 to R173), and the reading and writing of a field's own port (R64). In an
encode helper `some code` is the spec's `ok(code)` and `none` its `bad`. -/

namespace Sys2Proof.Machine

/-- A decode by table: the value the table gives the code, else the raw code marked unrecognised. -/
def tableReading {w : Nat} (t : List (Word × BitVec w)) (c : BitVec w) : Reading :=
  match valueOf t c with
  | some v => .known v
  | none => .unknown (zext c)

/-- `CLK_ENC` (R100): the comparison is on the whole 32-bit value. -/
def clkEnc (d : Word) : Option (BitVec 3) := codeOf clockTable d

/-- `CLK_DEC` (R101). All eight codes have a row. -/
def clkDec (c : BitVec 3) : Reading := tableReading clockTable c

/-- `PSK_ENC` (R102). -/
def pskEnc (p : Word) : Option (BitVec 2) := codeOf pskTable p

/-- `PSK_DEC` (R103). -/
def pskDec (c : BitVec 2) : Reading := tableReading pskTable c

/-- `BLK3_ENC` (R106). -/
def blk3Enc (v : Word) : Option (BitVec 3) := if v.toNat ≤ 7 then some (v.setWidth 3) else none

/-- `RATE6_ENC` (R140): even, at least 2 and at most 128, on the whole value and with no wrap. -/
def rate6Enc (d : Word) : Option (BitVec 6) :=
  if d.toNat % 2 = 0 ∧ 2 ≤ d.toNat ∧ d.toNat ≤ 128 then some (BitVec.ofNat 6 ((d.toNat - 2) / 2)) else none

/-- `RATE6_DEC` (R141): every code is recognised. -/
def rate6Dec (c : BitVec 6) : Reading := .known (BitVec.ofNat 32 (2 * c.toNat + 2))

/-- `NB_ENC` (R172): the check is on `n` itself, so no wrapping sum can look as if it fits. -/
def nbEnc (cfg : Config) (n : Word) : Option (BitVec 4) :=
  if cfg.nbMin ≤ n.toNat ∧ n.toNat ≤ 11 then some (BitVec.ofNat 4 (n.toNat + 4)) else none

/-- `NB_DEC` (R173): a code that would give a count below the least legal one is unrecognised (UNVERIFIED, log entry
14). -/
def nbDec (cfg : Config) (c : BitVec 4) : Reading :=
  if 4 + cfg.nbMin ≤ c.toNat then .known (BitVec.ofNat 32 (c.toNat - 4)) else .unknown (zext c)

/-- A modulation encode: the symbol of a symbol code (R63), then the family's field code of that symbol. -/
def modEnc {w : Nat} (t : List (Modulation × BitVec w)) (s : BitVec 4) : Option (BitVec w) :=
  match valueOf symbolTable s with
  | some m => codeOf t m
  | none => none

/-- A modulation decode (R81): the symbol code of the recognised symbol, else the raw field code. -/
def modDec {w : Nat} (t : List (Modulation × BitVec w)) (c : BitVec w) : Reading :=
  match valueOf t c with
  | some m =>
    match codeOf symbolTable m with
    | some s => .known (zext s)
    | none => .unknown (zext c)
  | none => .unknown (zext c)

/-- `MOD55_ENC` (R104). -/
def mod55Enc (s : BitVec 4) : Option (BitVec 5) := modEnc modT55x7Table s

/-- `MOD55_DEC` (R105). -/
def mod55Dec (c : BitVec 5) : Reading := modDec modT55x7Table c

/-- `MOD5555_ENC` (R142). -/
def mod5555Enc (s : BitVec 4) : Option (BitVec 3) := modEnc modT5555Table s

/-- `MOD5555_DEC` (R143). All eight codes have a row. -/
def mod5555Dec (c : BitVec 3) : Reading := modDec modT5555Table c

/-- `MOD4305_ENC` (R170). -/
def mod4305Enc (s : BitVec 4) : Option (BitVec 4) := modEnc modEm4x05Table s

/-- `MOD4305_DEC` (R171). -/
def mod4305Dec (c : BitVec 4) : Reading := modDec modEm4x05Table c

/-- Bit `id` of a flags bus as a word, 0 or 1 (R64). -/
def flagIn (flags : BitVec 16) (id : Nat) : Word := zext (flags.extractLsb' id 1)

/-- The field code of a field, read from the field's own port (R64), or none where the value is not a legal encode
input of that field (R65 to R67). A boolean field is always legal. -/
def codeOfInput (cfg : Config) (x : Inputs) (f : Field) : Option Word :=
  match f.codec with
  | .flag      => some (flagIn x.pFlags f.id)
  | .maxblk    => (blk3Enc x.pMaxblk).map zext
  | .psk       => (pskEnc x.pPsk).map zext
  | .modT55x7  => (mod55Enc x.pMod).map zext
  | .modT5555  => (mod5555Enc x.pMod).map zext
  | .modEm4x05 => (mod4305Enc x.pMod).map zext
  | .clock     => (clkEnc x.pDiv).map zext
  | .rate6     => (rate6Enc x.pDiv).map zext
  | .nblocks   => (nbEnc cfg x.pNblocks).map zext

/-- The reading of a field's code (the "decode" column of R65 to R67). -/
def readingOf (cfg : Config) (f : Field) (code : Word) : Reading :=
  match f.codec with
  | .flag      => .known code
  | .maxblk    => .known code
  | .psk       => pskDec (code.setWidth 2)
  | .modT55x7  => mod55Dec (code.setWidth 5)
  | .modT5555  => mod5555Dec (code.setWidth 3)
  | .modEm4x05 => mod4305Dec (code.setWidth 4)
  | .clock     => clkDec (code.setWidth 3)
  | .rate6     => rate6Dec (code.setWidth 6)
  | .nblocks   => nbDec cfg (code.setWidth 4)

/-- The outputs with a value on the field's own port (R64): a boolean field sets bit `id` of `q_flags`, which is 0
before. -/
def writeField (f : Field) (v : Word) (o : Outputs) : Outputs :=
  match f.codec with
  | .flag => { o with qFlags := o.qFlags ||| (v.setWidth 16 <<< f.id) }
  | .maxblk => { o with qMaxblk := v }
  | .psk => { o with qPsk := v }
  | .modT55x7 | .modT5555 | .modEm4x05 => { o with qMod := v.setWidth 5 }
  | .clock | .rate6 => { o with qDiv := v }
  | .nblocks => { o with qNblocks := v }

end Sys2Proof.Machine
end

