-- ==== Sys2Proof/Machine/Flags.lean ====
section
/-! DEFINITION. Every computation of `status` and `err` (R200 to R205), the block's only condition outputs (R27): the
error mask and the three `raise` primitives of R11. There is no trap: an error is a value on the outputs and nothing
else (R206). -/

namespace Sys2Proof.Machine

/-- The error bit a field owns (R64). -/
def errBit (f : Field) : BitVec 16 := 1#16 <<< f.id

/-- The mask of every field whose input value has no encoding (R201, R205: all of them at once, in no order). -/
def invalidMask (cfg : Config) (x : Inputs) : Layout → BitVec 16
  | [] => 0
  | f :: fs =>
    match codeOfInput cfg x f with
    | some _ => invalidMask cfg x fs
    | none => errBit f ||| invalidMask cfg x fs

/-- `unk[k] <- 1` for the field with id k: its error bit joins the mask (R202). -/
def markUnrecognized (f : Field) (o : Outputs) : Outputs := { o with err := o.err ||| errBit f }

/-- The outputs of an operation that completed with a register value (R200: OK, `err` 0). -/
def okRegister (w : Word) : Outputs := { Outputs.zero with regOut := w }

/-- `raise InvalidField(mask)` (R201): `reg_out` and every decode output are 0. -/
def raiseInvalidField (mask : BitVec 16) : Outputs := { Outputs.zero with status := .invalidField, err := mask }

/-- `raise UnrecognizedField(mask)` (R202): the decode outputs already written are kept. -/
def raiseUnrecognizedField (mask : BitVec 16) (o : Outputs) : Outputs :=
  { o with status := .unrecognizedField, err := mask }

/-- The end of a decode (R205): the error is raised where any field was marked, with all of them in the mask. -/
def raiseMarked (o : Outputs) : Outputs := if o.err = 0 then o else raiseUnrecognizedField o.err o

/-- `raise IllegalOp()` (R203): 0 on every other output. -/
def raiseIllegalOp : Outputs := { Outputs.zero with status := .illegalOp }

end Sys2Proof.Machine
end

