-- ==== Sys2Proof/Machine/Ops.lean ====
section
/-! DEFINITION. The shared operations: assembly (R77) and extraction (R78) of a register value, an encode and a decode
over a layout, presenting an evaluation's outputs, fetching the caller's next evaluation (R239), reading the output ports
(R231) and instantiating the block (R8, R232). -/

namespace Sys2Proof.Machine

/-- The assembly of R77: the OR, over the fields, of the field code shifted into place. -/
def assemble (cfg : Config) (x : Inputs) : Layout → Word
  | [] => 0
  | f :: fs =>
    match codeOfInput cfg x f with
    | some c => (c <<< f.shift) ||| assemble cfg x fs
    | none => assemble cfg x fs

/-- The extraction of R78: `(R >> shift) & (2^width - 1)`. -/
def extractField (f : Field) (r : Word) : Word := (r >>> f.shift) &&& lowMask f.width

/-- An encode over a layout (R205): invalid fields are reported together and no partial register value is output;
otherwise the assembled register value. -/
def encodeRegister (cfg : Config) (layout : Layout) (x : Inputs) : Outputs :=
  if invalidMask cfg x layout = 0 then okRegister (assemble cfg x layout)
  else raiseInvalidField (invalidMask cfg x layout)

/-- The fields of a register value written to their ports, one after the other. The raw code of an unrecognised field is
written too, and its error bit set (R202). -/
def decodeFields (cfg : Config) (r : Word) : Layout → Outputs → Outputs
  | [], o => o
  | f :: fs, o =>
    match readingOf cfg f (extractField f r) with
    | .known v => decodeFields cfg r fs (writeField f v o)
    | .unknown raw => decodeFields cfg r fs (markUnrecognized f (writeField f raw o))

/-- The residue of a register value (R75): its bits outside every field. -/
def residueOf (layout : Layout) (r : Word) : Word := r &&& ~~~ fieldMask layout

/-- A decode over a layout (R205): every field is extracted, the residue reported without an error (R204), and the
unrecognised fields reported together. -/
def decodeRegister (cfg : Config) (layout : Layout) (r : Word) : Outputs :=
  raiseMarked (decodeFields cfg r layout { Outputs.zero with qResidue := residueOf layout r })

/-- The end of an evaluation: its outputs are presented on the output ports and join the outputs of the run (R239). A
block whose parameters fail their check does not exist, and is refused (R8, R232; DESIGN CHOICE, log entry 2). -/
def present (o : Outputs) (s : State) : Host.Outcome State Fault Refusal :=
  if s.config.legal then .next { s with results := s.results ++ [o] } else .refused .illegalParameters

/-- The caller's next evaluation, if its program holds one: the operation its `op` selects, and the state with its values
on the input ports (R239, R60). -/
def fetch (s : State) : Option (Instr × State) :=
  match s.program with
  | [] => none
  | x :: rest => some (decodeOp x.op, { s with inp := x, program := rest })

/-- What the output ports present: the outputs of the last evaluation; before the first they carry no value, and reading
them is a fault (R231, R233; DESIGN CHOICE, log entry 5). -/
def readOutputs (s : State) : Except Fault Outputs :=
  match s.results.getLast? with
  | some o => .ok o
  | none => .error .noEvaluation

/-- The block instantiated with the parameters given, refused where their check fails (R8, R232). -/
def instantiate (cfg : Config) : Host.Outcome State Fault Refusal :=
  if cfg.legal then .next { State.reset with config := cfg } else .refused .illegalParameters

/-- The state with an operation of this `op` as the next evaluation the caller issues. Where the program holds a next
evaluation only its `op` changes; where it holds none, one is issued with the values the other input ports have. -/
def issueOp (s : State) (op : BitVec 3) : State :=
  match s.program with
  | [] => { s with program := [{ s.inp with op := op }] }
  | x :: rest => { s with program := { x with op := op } :: rest }

end Sys2Proof.Machine
end

