-- ==== Sys2Proof/Machine/Em4x05.lean ====
section
/-! DEFINITION. The EM4x05/EM4x69 operations (spec/43_em4x05.md). -/

namespace Sys2Proof.Machine

/-- The outputs of EM4X05.ENC (R180). -/
def em4x05Encode (cfg : Config) (x : Inputs) : Outputs := encodeRegister cfg em4x05Layout x

/-- The outputs of EM4X05.DEC (R181). -/
def em4x05Decode (cfg : Config) (x : Inputs) : Outputs := decodeRegister cfg em4x05Layout x.regIn

/-- EM4X05.ENC (R180). -/
def execEm4x05Enc (s : State) : Host.Outcome State Fault Refusal := present (em4x05Encode s.config s.inp) s

/-- EM4X05.DEC (R181). -/
def execEm4x05Dec (s : State) : Host.Outcome State Fault Refusal := present (em4x05Decode s.config s.inp) s

end Sys2Proof.Machine
end

