-- ==== Sys2Proof/Machine/Reserved.lean ====
section
/-! DEFINITION. The reserved operation, op 7 (R62, R203). -/

namespace Sys2Proof.Machine

/-- The reserved operation: status ILLEGAL_OP and 0 on every other output, whatever the inputs are (R203). DESIGN CHOICE
(log entry 1): R203 also advises that a Lean model map it to a refusal; the model presents the outputs the rule gives,
and refuses in the record view (Machine/Records.lean). -/
def execReservedOp (s : State) : Host.Outcome State Fault Refusal := present raiseIllegalOp s

end Sys2Proof.Machine
end

