-- ==== Sys2Proof/Machine/T5555.lean ====
section
/-! DEFINITION. The T5555 (Q5) operations (spec/42_t5555.md). -/

namespace Sys2Proof.Machine

/-- The outputs of T5555.ENC (R150). -/
def t5555Encode (cfg : Config) (x : Inputs) : Outputs := encodeRegister cfg (t5555Layout cfg) x

/-- The outputs of T5555.DEC (R151). -/
def t5555Decode (cfg : Config) (x : Inputs) : Outputs := decodeRegister cfg (t5555Layout cfg) x.regIn

/-- T5555.ENC (R150). -/
def execT5555Enc (s : State) : Host.Outcome State Fault Refusal := present (t5555Encode s.config s.inp) s

/-- T5555.DEC (R151). -/
def execT5555Dec (s : State) : Host.Outcome State Fault Refusal := present (t5555Decode s.config s.inp) s

end Sys2Proof.Machine
end

