-- ==== Sys2Proof/Machine/T55x7.lean ====
section
/-! DEFINITION. The T55x7 operations (spec/41_t55x7.md). -/

namespace Sys2Proof.Machine

/-- The outputs of T55X7.ENC (R110). -/
def t55x7Encode (cfg : Config) (x : Inputs) : Outputs := encodeRegister cfg t55x7Layout x

/-- The outputs of T55X7.DEC (R111). -/
def t55x7Decode (cfg : Config) (x : Inputs) : Outputs := decodeRegister cfg t55x7Layout x.regIn

/-- The outputs of T55X7.CLKBIT (R112): the unshifted field code, or InvalidField on the BITRATE field, id 8. -/
def t55x7ClockBit (x : Inputs) : Outputs :=
  match clkEnc x.pDiv with
  | some c => okRegister (zext c)
  | none => raiseInvalidField (1#16 <<< 8)

/-- T55X7.ENC (R110). -/
def execT55x7Enc (s : State) : Host.Outcome State Fault Refusal := present (t55x7Encode s.config s.inp) s

/-- T55X7.DEC (R111). -/
def execT55x7Dec (s : State) : Host.Outcome State Fault Refusal := present (t55x7Decode s.config s.inp) s

/-- T55X7.CLKBIT (R112). -/
def execT55x7Clkbit (s : State) : Host.Outcome State Fault Refusal := present (t55x7ClockBit s.inp) s

end Sys2Proof.Machine
end

