-- ==== Sys2Proof/Machine/Dispatch.lean ====
section
/-! DEFINITION. The dispatch of an operation to its meaning (R61). -/

namespace Sys2Proof.Machine

/-- One evaluation of the operation `i` on the values of the input ports (R26). -/
def exec (i : Instr) (s : State) : Host.Outcome State Fault Refusal :=
  match i with
  | .t55x7Enc => Sys2Proof.Machine.execT55x7Enc s
  | .t55x7Dec => Sys2Proof.Machine.execT55x7Dec s
  | .t5555Enc => Sys2Proof.Machine.execT5555Enc s
  | .t5555Dec => Sys2Proof.Machine.execT5555Dec s
  | .em4x05Enc => Sys2Proof.Machine.execEm4x05Enc s
  | .em4x05Dec => Sys2Proof.Machine.execEm4x05Dec s
  | .t55x7Clkbit => Sys2Proof.Machine.execT55x7Clkbit s
  | .reservedOp => Sys2Proof.Machine.execReservedOp s

end Sys2Proof.Machine
end

