-- ==== Sys2Proof/Machine/Step.lean ====
section
/-! DEFINITION. One step: the caller issues its next evaluation and the block performs it (R239, R46). -/

namespace Sys2Proof.Machine

/-- One evaluation, atomic and without duration (R46, R237). The run ends where the caller's program holds no further
evaluation (R239; DESIGN CHOICE, log entry 4). -/
def step (s : State) : Host.Outcome State Fault Refusal :=
  match fetch s with
  | some (i, t) => exec i t
  | none => .fault .runEnded

/-- The state whose next evaluation has the `op` that this word of spec/opcode_table.json selects (log entries 4, 6). The
table gives the operands no bits: they stay what the input ports, or the caller's next evaluation, hold. -/
def State.withFetchWord (s : State) (nbits w : Nat) : State := issueOp s (opOfTableWord nbits w)

end Sys2Proof.Machine
end

