-- ==== Sys2Proof/Machine/Records.lean ====
section
/-! DEFINITION. The record view of the ports (R28), the default parameter records (R82), and the re-encoding of a decode
(R114, step 3 of R84). -/

namespace Sys2Proof.Machine

/-- The raw value a parameter record holds for a field: what the field's input port carries (R28, R64). -/
def inputValue (x : Inputs) (f : Field) : Word :=
  match f.codec with
  | .flag => flagIn x.pFlags f.id
  | .maxblk => x.pMaxblk
  | .psk => x.pPsk
  | .modT55x7 | .modT5555 | .modEm4x05 => zext x.pMod
  | .clock | .rate6 => x.pDiv
  | .nblocks => x.pNblocks

/-- The inputs with a value placed on the field's input port (R64, R83). -/
def setInput (f : Field) (v : Word) (x : Inputs) : Inputs :=
  match f.codec with
  | .flag => { x with pFlags := (x.pFlags &&& ~~~ errBit f) ||| ((v &&& 1).setWidth 16 <<< f.id) }
  | .maxblk => { x with pMaxblk := v }
  | .psk => { x with pPsk := v }
  | .modT55x7 | .modT5555 | .modEm4x05 => { x with pMod := v.setWidth 4 }
  | .clock | .rate6 => { x with pDiv := v }
  | .nblocks => { x with pNblocks := v }

/-- What the field's output port carries (R24, R64). -/
def outputValue (o : Outputs) (f : Field) : Word :=
  match f.codec with
  | .flag => flagIn o.qFlags f.id
  | .maxblk => o.qMaxblk
  | .psk => o.qPsk
  | .modT55x7 | .modT5555 | .modEm4x05 => zext o.qMod
  | .clock | .rate6 => o.qDiv
  | .nblocks => o.qNblocks

/-- A decode's record of R28: each field known or unknown, and the residue. -/
structure Record where
  fields  : List (FieldName × Reading)
  residue : Word
  deriving DecidableEq, Repr

/-- The parameter record of a family's encode inputs: each field with its raw value (R28). -/
def parameterRecord (cfg : Config) (fam : Family) (x : Inputs) : List (FieldName × Word) :=
  (layoutOf cfg fam).map fun f => (f.name, inputValue x f)

/-- One field of a decode's record: unknown where its error bit is set (R28). -/
def fieldReading (o : Outputs) (f : Field) : Reading :=
  if o.err.getLsbD f.id then .unknown (outputValue o f) else .known (outputValue o f)

/-- The record view of the outputs of a decode of the family (R28). The outputs of the reserved operation are a refusal
here (R203), and INVALID_FIELD, which no decode gives, has no record (DESIGN CHOICE, log entry 16). -/
def decodeRecord (cfg : Config) (fam : Family) (o : Outputs) : Except Refusal Record :=
  match o.status with
  | .ok | .unrecognizedField =>
    .ok { fields := (layoutOf cfg fam).map fun f => (f.name, fieldReading o f), residue := o.qResidue }
  | .invalidField => .error .noRecord
  | .illegalOp => .error .illegalOp

/-- The default parameter record of a family, on the input ports, with the family's encode on `op` (R82). -/
def defaultRecord (cfg : Config) : Family → Inputs
  | .t55x7 => { Inputs.zero with op := encodeOp .t55x7Enc, pMod := 0, pDiv := 8, pPsk := 2 }
  | .t5555 => { Inputs.zero with op := encodeOp .t5555Enc, pMod := 8, pDiv := 2, pPsk := 2 }
  | .em4x05 =>
    { Inputs.zero with
      op := encodeOp .em4x05Enc, pMod := 0, pDiv := 2, pPsk := 2, pNblocks := BitVec.ofNat 32 cfg.nbMin }

/-- The inputs of a family's decode of a register value. -/
def decodeInputs (fam : Family) (r : Word) : Inputs :=
  { Inputs.zero with op := encodeOp (decodeInstr fam), regIn := r }

/-- Every field's decoded value placed on its input port, or none where a field is marked unrecognised. -/
def fillInputs (o : Outputs) : Layout → Inputs → Option Inputs
  | [], x => some x
  | f :: fs, x =>
    match fieldReading o f with
    | .known v => fillInputs o fs (setInput f v x)
    | .unknown _ => none

/-- The encode inputs with every field taken from the outputs of a decode (R114, step 3 of R84). Refused where a field is
unrecognised: the record view cannot express it as an encode input (R114, I1 of spec/93). -/
def reencode (cfg : Config) (fam : Family) (o : Outputs) : Except Refusal Inputs :=
  match decodeRecord cfg fam o with
  | .ok _ =>
    match fillInputs o (layoutOf cfg fam) { Inputs.zero with op := encodeOp (encodeInstr fam) } with
    | some x => .ok x
    | none => .error .unrecognisedField
  | .error e => .error e

end Sys2Proof.Machine
end

