-- ==== Sys2Proof/Machine/Asm.lean ====
section
/-! DEFINITION. The assembler notation of R83, from the characters of a line to the values on the input ports. The
notation is no part of the block (D28); the spec's programs are written in it. DESIGN CHOICE (log entry 15): a line
that R83 gives no meaning is refused under a name of its own. -/

namespace Sys2Proof.Machine

/-- Why a line has no meaning. -/
inductive AsmError where
  /-- The first word is no mnemonic of R83 or R84. -/
  | unknownMnemonic
  /-- An operand has no `=`, or its name is no asm name of R65 to R67 and not `reg`. -/
  | badOperand
  /-- A value is no decimal number, no `0x` number and no symbol of R63. -/
  | badValue
  /-- The operation takes no operand of this name. -/
  | operandNotTaken
  /-- The value does not fit the operand: a flag other than 0 or 1, a number wider than its port, a misplaced symbol. -/
  | valueDoesNotFit
  /-- An operand stands twice. -/
  | repeatedOperand
  /-- A read-modify-write line does not say which register value it modifies. -/
  | noRegister
  deriving DecidableEq, Repr

/-- What a mnemonic stands for: an operation of the block (R83), or the caller's read-modify-write of a family (R84). -/
inductive AsmHead where
  | operation (i : Instr)
  | rmw (fam : Family)
  deriving DecidableEq, Repr

/-- An operand's name: `reg`, or a field's asm name. -/
inductive AsmName where
  | reg
  | field (n : FieldName)
  deriving DecidableEq, Repr

/-- An operand's value: a number, or a modulation symbol. -/
inductive AsmValue where
  | number (n : Nat)
  | symbol (m : Modulation)
  deriving DecidableEq, Repr

/-- A line of R83 or R84, read. -/
structure AsmLine where
  head     : AsmHead
  operands : List (AsmName × AsmValue)
  deriving DecidableEq, Repr

/-- The mnemonics of R83 and the pseudo-operations of R84. The reserved operation has none. -/
def mnemonicTable : List (List Char × AsmHead) :=
  [("T55X7.ENC".toList, .operation .t55x7Enc), ("T55X7.DEC".toList, .operation .t55x7Dec),
   ("T55X7.CLKBIT".toList, .operation .t55x7Clkbit), ("T5555.ENC".toList, .operation .t5555Enc),
   ("T5555.DEC".toList, .operation .t5555Dec), ("EM4X05.ENC".toList, .operation .em4x05Enc),
   ("EM4X05.DEC".toList, .operation .em4x05Dec), ("T55X7.RMW".toList, .rmw .t55x7), ("T5555.RMW".toList, .rmw .t5555),
   ("EM4X05.RMW".toList, .rmw .em4x05)]

/-- The operand names: `reg`, and the asm names of R65 to R67. -/
def operandNameTable : List (List Char × AsmName) :=
  [("reg".toList, .reg), ("por".toList, .field .por), ("st".toList, .field .st), ("pwd".toList, .field .pwd),
   ("maxblk".toList, .field .maxblk), ("aor".toList, .field .aor), ("psk".toList, .field .psk),
   ("mod".toList, .field .mod), ("xmode".toList, .field .xmode), ("div".toList, .field .div), ("inv".toList, .field .inv),
   ("fw".toList, .field .fw), ("ps".toList, .field .ps), ("nblocks".toList, .field .nblocks), ("rl".toList, .field .rl),
   ("rhl".toList, .field .rhl), ("wl".toList, .field .wl), ("whl".toList, .field .whl), ("raw".toList, .field .raw),
   ("dis".toList, .field .dis), ("rtf".toList, .field .rtf)]

/-- The symbol names of R63. -/
def symbolNameTable : List (List Char × Modulation) :=
  [("DIRECT".toList, .direct), ("PSK1".toList, .psk1), ("PSK2".toList, .psk2), ("PSK3".toList, .psk3),
   ("FSK1".toList, .fsk1), ("FSK2".toList, .fsk2), ("FSK1A".toList, .fsk1a), ("FSK2A".toList, .fsk2a),
   ("MANCHESTER".toList, .manchester), ("BIPHASE".toList, .biphase), ("DIPHASE".toList, .diphase),
   ("MILLER".toList, .miller)]

/-- A line without its comment, which runs from the first space, semicolon, space to the end. -/
def cutComment : List Char → List Char
  | [] => []
  | c :: cs =>
    match c, cs with
    | ' ', ';' :: ' ' :: _ => []
    | _, _ => c :: cutComment cs

/-- A text cut at every occurrence of a character. -/
def splitAtChar (sep : Char) : List Char → List (List Char)
  | [] => [[]]
  | c :: cs =>
    match splitAtChar sep cs with
    | [] => [[c]]
    | word :: words => if c = sep then [] :: word :: words else (c :: word) :: words

/-- The value of a digit of a number in the base given. -/
def digitValue (base : Nat) (c : Char) : Option Nat :=
  let n := c.toNat
  let v :=
    if 48 ≤ n ∧ n ≤ 57 then n - 48
    else if 65 ≤ n ∧ n ≤ 70 then n - 55
    else if 97 ≤ n ∧ n ≤ 102 then n - 87
    else base
  if v < base then some v else none

/-- The digits of a number after those that gave `acc`. -/
def digitsFrom (base : Nat) : List Char → Nat → Option Nat
  | [], acc => some acc
  | c :: cs, acc =>
    match digitValue base c with
    | some v => digitsFrom base cs (acc * base + v)
    | none => none

/-- A value of R83: a `0x` number, a decimal number, or a symbol. -/
def readValue (text : List Char) : Except AsmError AsmValue :=
  match codeOf symbolNameTable text with
  | some m => .ok (.symbol m)
  | none =>
    let number :=
      match text with
      | '0' :: 'x' :: d :: ds => digitsFrom 16 (d :: ds) 0
      | d :: ds => digitsFrom 10 (d :: ds) 0
      | [] => none
    match number with
    | some n => .ok (.number n)
    | none => .error .badValue

/-- An operand of R83: a name, `=`, and a value. -/
def readOperand (text : List Char) : Except AsmError (AsmName × AsmValue) :=
  match splitAtChar '=' text with
  | [name, value] =>
    match codeOf operandNameTable name with
    | some n =>
      match readValue value with
      | .ok v => .ok (n, v)
      | .error e => .error e
    | none => .error .badOperand
  | _ => .error .badOperand

/-- The operands of a line, in order. -/
def readOperands : List (List Char) → Except AsmError (List (AsmName × AsmValue))
  | [] => .ok []
  | t :: ts =>
    match readOperand t, readOperands ts with
    | .ok p, .ok ps => .ok (p :: ps)
    | .error e, _ => .error e
    | .ok _, .error e => .error e

/-- A line of text, read by the grammar of R83. -/
def readLine (text : List Char) : Except AsmError AsmLine :=
  match splitAtChar ' ' (cutComment text) with
  | [] => .error .unknownMnemonic
  | word :: words =>
    match codeOf mnemonicTable word with
    | none => .error .unknownMnemonic
    | some h =>
      match readOperands words with
      | .ok ps => if (ps.map Prod.fst).Nodup then .ok { head := h, operands := ps } else .error .repeatedOperand
      | .error e => .error e

/-- A number that fits a port of `bits` bits, as a word. -/
def portNumber (bits : Nat) : AsmValue → Except AsmError Word
  | .number n => if n < 2 ^ bits then .ok (BitVec.ofNat 32 n) else .error .valueDoesNotFit
  | .symbol _ => .error .valueDoesNotFit

/-- The word an operand's value places on a field's port (R83): 0 or 1 for a flag, a symbol or its 4-bit code for the
modulation, a 32-bit number for the others. -/
def fieldOperand (f : Field) (v : AsmValue) : Except AsmError Word :=
  match f.codec with
  | .flag => portNumber 1 v
  | .modT55x7 | .modT5555 | .modEm4x05 =>
    match v with
    | .number _ => portNumber 4 v
    | .symbol m =>
      match codeOf symbolTable m with
      | some c => .ok (zext c)
      | none => .error .valueDoesNotFit
  | .maxblk | .psk | .clock | .rate6 | .nblocks => portNumber 32 v

/-- The inputs with one operand of an encode of the family placed (R83). -/
def placeField (cfg : Config) (fam : Family) (n : FieldName) (v : AsmValue) (x : Inputs) : Except AsmError Inputs :=
  match (layoutOf cfg fam).find? (fun f => f.name == n) with
  | none => .error .operandNotTaken
  | some f =>
    match fieldOperand f v with
    | .ok w => .ok (setInput f w x)
    | .error e => .error e

/-- The inputs with one operand of an operation placed (R83). -/
def placeOperand (cfg : Config) (i : Instr) (p : AsmName × AsmValue) (x : Inputs) : Except AsmError Inputs :=
  match roleOf i, p.1 with
  | .encode fam, .field n => placeField cfg fam n p.2 x
  | .decode _, .reg =>
    match portNumber 32 p.2 with
    | .ok w => .ok { x with regIn := w }
    | .error e => .error e
  | .clkbit, .field .div =>
    match portNumber 32 p.2 with
    | .ok w => .ok { x with pDiv := w }
    | .error e => .error e
  | _, _ => .error .operandNotTaken

/-- The inputs with every operand placed, one after the other. -/
def placeOperands (cfg : Config) (i : Instr) : List (AsmName × AsmValue) → Inputs → Except AsmError Inputs
  | [], x => .ok x
  | p :: ps, x =>
    match placeOperand cfg i p x with
    | .ok y => placeOperands cfg i ps y
    | .error e => .error e

/-- The inputs of an operation with every operand left out (R83): the default record for an encode, `reg` 0 for a decode,
`div` 8 for CLKBIT, and 0 on every port the operation does not read. -/
def startInputs (cfg : Config) (i : Instr) : Inputs :=
  match roleOf i with
  | .encode fam => defaultRecord cfg fam
  | .decode fam => decodeInputs fam 0
  | .clkbit => { Inputs.zero with op := encodeOp i, pDiv := 8 }
  | .reserved => { Inputs.zero with op := encodeOp i }

/-- What a line asks of the caller: one evaluation, or a read-modify-write of a register value with the fields to change. -/
inductive AsmItem where
  | evaluate (x : Inputs)
  | rmw (fam : Family) (r : Word) (edits : List (AsmName × AsmValue))
  deriving DecidableEq, Repr

/-- The register value and the edits of a read-modify-write line (R84): `reg=R`, then the fields that change. -/
def rmwOperands : List (AsmName × AsmValue) → Except AsmError (Word × List (AsmName × AsmValue))
  | (.reg, v) :: edits =>
    match portNumber 32 v with
    | .ok r => .ok (r, edits)
    | .error e => .error e
  | _ => .error .noRegister

/-- The assembly of a line (R83, R84). -/
def assembleLine (cfg : Config) (l : AsmLine) : Except AsmError AsmItem :=
  match l.head with
  | .operation i =>
    match placeOperands cfg i l.operands (startInputs cfg i) with
    | .ok x => .ok (.evaluate x)
    | .error e => .error e
  | .rmw fam =>
    match rmwOperands l.operands with
    | .error e => .error e
    | .ok (r, edits) =>
      match placeOperands cfg (encodeInstr fam) edits Inputs.zero with
      | .ok _ => .ok (.rmw fam r edits)
      | .error e => .error e

/-- The assembly of a line of text. -/
def assembleText (cfg : Config) (text : List Char) : Except AsmError AsmItem :=
  match readLine text with
  | .ok l => assembleLine cfg l
  | .error e => .error e

end Sys2Proof.Machine
end

