-- ==== Sys2Proof/Machine/Caller.lean ====
section
/-! DEFINITION. What the caller does with the block (R238): it issues evaluations, reads the outputs, branches on them, and
performs the read-modify-write sequence of R84. None of this is an operation of the block.
DESIGN CHOICE (log entry 17): how the sequence ends where R84 names no result. -/

namespace Sys2Proof.Machine

/-- The caller sets the evaluations it issues from here on: at the start of a run, or after a branch on what it read
(R207, R239). -/
def setProgram (xs : List Inputs) (s : State) : State := { s with program := xs }

/-- One evaluation issued ahead of the rest of the program. -/
def issue (x : Inputs) (s : State) : Host.Outcome State Fault Refusal := step { s with program := x :: s.program }

/-- One evaluation issued and its outputs read. -/
def issueRead (x : Inputs) (s : State) : Host.Outcome (State × Outputs) Fault Refusal :=
  match issue x s with
  | .next t =>
    match readOutputs t with
    | .ok o => .next (t, o)
    | .error e => .fault e
  | .fault e => .fault e
  | .refused e => .refused e

/-- How a read-modify-write ends (R84). -/
inductive RmwResult where
  /-- Step 2: the decode's status is not OK, and it is the result. -/
  | stopped (status : Status) (err : BitVec 16)
  /-- Step 4 does not apply: the encode's status is not OK. -/
  | rejected (status : Status) (err : BitVec 16)
  /-- Step 4: the new register value, with the unassigned bits of the old one. -/
  | value (r : Word)
  /-- A named field is none of the family's, or its value does not fit (R83). -/
  | badEdit (e : AsmError)
  deriving DecidableEq, Repr

/-- The pseudo-operation of R84: decode the register value, stop unless the status is OK, encode every field as decoded but
for the edited ones, and put the unassigned bits back. -/
def rmw (fam : Family) (r : Word) (edits : List (AsmName × AsmValue)) (s : State) :
    Host.Outcome (State × RmwResult) Fault Refusal :=
  match issueRead (decodeInputs fam r) s with
  | .fault e => .fault e
  | .refused e => .refused e
  | .next (s1, o1) =>
    if o1.status = .ok then
      match reencode s.config fam o1 with
      | .error e => .refused e
      | .ok x =>
        match placeOperands s.config (encodeInstr fam) edits x with
        | .error e => .next (s1, .badEdit e)
        | .ok y =>
          match issueRead y s1 with
          | .fault e => .fault e
          | .refused e => .refused e
          | .next (s2, o2) =>
            if o2.status = .ok then .next (s2, .value (o2.regOut ||| o1.qResidue))
            else .next (s2, .rejected o2.status o2.err)
    else .next (s1, .stopped o1.status o1.err)

/-- A line of assembler text performed by the caller (R83, R84): an evaluation, or a read-modify-write. -/
def performItem (item : AsmItem) (s : State) : Host.Outcome State Fault Refusal :=
  match item with
  | .evaluate x => issue x s
  | .rmw fam r edits =>
    match rmw fam r edits s with
    | .next (t, _) => .next t
    | .fault e => .fault e
    | .refused e => .refused e

end Sys2Proof.Machine
end

