-- ==== Sys2Proof/Safety.lean ====
section
/-! DEFINITION. The terms claims use: the function of R26, the coherence of an evaluation's outputs (R25, R200 to R205), the
invariant of the machine, the caller's premises (R232, R234), and the legal parameter records of the round trips. -/

namespace Sys2Proof.Machine

/-- The outputs of the operation `i` on the values of the input ports: the operation rules of R61, with no state. -/
def evaluation (i : Instr) (cfg : Config) (x : Inputs) : Outputs :=
  match i with
  | .t55x7Enc => t55x7Encode cfg x
  | .t55x7Dec => t55x7Decode cfg x
  | .t5555Enc => t5555Encode cfg x
  | .t5555Dec => t5555Decode cfg x
  | .em4x05Enc => em4x05Encode cfg x
  | .em4x05Dec => em4x05Decode cfg x
  | .t55x7Clkbit => t55x7ClockBit x
  | .reservedOp => raiseIllegalOp

/-- The function of R26: the outputs of one evaluation of the inputs, by the operation that `op` selects. -/
def tcrc (cfg : Config) (x : Inputs) : Outputs := evaluation (decodeOp x.op) cfg x

/-- The outputs of one evaluation agree with each other, whichever operation gave them: OK goes with an empty error mask
(R200), each error with what R201, R202 and R203 say it records, a register value with no decode outputs (R24, R25), and no
mask has a bit above the last field id of any family, 10 (R64). -/
def outputsCoherent (o : Outputs) : Prop :=
  (o.status = .ok → o.err = 0)
    ∧ (o.status = .invalidField → o.err ≠ 0 ∧ o = raiseInvalidField o.err)
    ∧ (o.status = .unrecognizedField → o.err ≠ 0 ∧ o.regOut = 0)
    ∧ (o.status = .illegalOp → o = raiseIllegalOp)
    ∧ (o.regOut ≠ 0 → o = okRegister o.regOut)
    ∧ o.err &&& 0xF800 = 0
    ∧ o.qFlags &&& 0xF800 = 0

/-- The invariant of the machine: its parameters are legal (R8), and every evaluation of the run left coherent outputs. -/
def machineInvariant (s : State) : Prop := s.config.legal = true ∧ ∀ o ∈ s.results, outputsCoherent o

/-- The caller's premise of R234: it writes `reg_out` to a tag only where that evaluation's status is OK. -/
def writeBackAllowed (o : Outputs) : Prop := o.status = .ok

/-- A T55x7 parameter record with every validated field legal (R65), and flag inputs from ids 0, 1, 2, 4 and 7 only. -/
def legalT55x7 (x : Inputs) : Prop :=
  x.pMaxblk.toNat ≤ 7
    ∧ (x.pPsk = 2 ∨ x.pPsk = 4 ∨ x.pPsk = 8)
    ∧ x.pMod.toNat ≤ 10
    ∧ (x.pDiv = 8 ∨ x.pDiv = 16 ∨ x.pDiv = 32 ∨ x.pDiv = 40 ∨ x.pDiv = 50 ∨ x.pDiv = 64 ∨ x.pDiv = 100 ∨ x.pDiv = 128)
    ∧ x.pFlags &&& ~~~ 0x0097#16 = 0

/-- A T5555 parameter record with every validated field legal (R66), and flag inputs from ids 0, 3, 5, 6, 8 and 9 only. -/
def legalT5555 (x : Inputs) : Prop :=
  x.pMaxblk.toNat ≤ 7
    ∧ (x.pPsk = 2 ∨ x.pPsk = 4 ∨ x.pPsk = 8)
    ∧ (x.pMod.toNat ≤ 5 ∨ x.pMod = 8 ∨ x.pMod = 9)
    ∧ (x.pDiv.toNat % 2 = 0 ∧ 2 ≤ x.pDiv.toNat ∧ x.pDiv.toNat ≤ 128)
    ∧ x.pFlags &&& ~~~ 0x0369#16 = 0

/-- An EM4x05 parameter record with every validated field legal (R67), and flag inputs from ids 4 to 10 only. -/
def legalEm4x05 (cfg : Config) (x : Inputs) : Prop :=
  (x.pDiv.toNat % 2 = 0 ∧ 2 ≤ x.pDiv.toNat ∧ x.pDiv.toNat ≤ 128)
    ∧ (x.pMod.toNat ≤ 5 ∨ x.pMod = 8 ∨ x.pMod = 9 ∨ x.pMod = 11)
    ∧ (x.pPsk = 2 ∨ x.pPsk = 4 ∨ x.pPsk = 8)
    ∧ (cfg.nbMin ≤ x.pNblocks.toNat ∧ x.pNblocks.toNat ≤ 11)
    ∧ x.pFlags &&& ~~~ 0x07F0#16 = 0

/-- The boolean field ids of a family, as a mask on `p_flags` and `q_flags` (R64 with R65 to R67). -/
def flagMask : Family → BitVec 16
  | .t55x7  => 0x0097
  | .t5555  => 0x0369
  | .em4x05 => 0x07F0

/-- The field ids of a family, as a mask on `err` (R64 with R65 to R67). -/
def idMask : Family → BitVec 16
  | .t55x7  => 0x01FF
  | .t5555  => 0x03FF
  | .em4x05 => 0x07FF

/-- The inputs with every port that the operation does not read at 0 (the "operands read" column of R61), and with the
`p_flags` bits that the family ignores at 0 (R64). -/
def readInputs (i : Instr) (x : Inputs) : Inputs :=
  match roleOf i with
  | .encode .em4x05 =>
    { Inputs.zero with
      pMod := x.pMod, pDiv := x.pDiv, pPsk := x.pPsk, pNblocks := x.pNblocks, pFlags := x.pFlags &&& flagMask .em4x05 }
  | .encode .t55x7 =>
    { Inputs.zero with
      pMod := x.pMod, pDiv := x.pDiv, pPsk := x.pPsk, pMaxblk := x.pMaxblk, pFlags := x.pFlags &&& flagMask .t55x7 }
  | .encode .t5555 =>
    { Inputs.zero with
      pMod := x.pMod, pDiv := x.pDiv, pPsk := x.pPsk, pMaxblk := x.pMaxblk, pFlags := x.pFlags &&& flagMask .t5555 }
  | .decode _ => { Inputs.zero with regIn := x.regIn }
  | .clkbit => { Inputs.zero with pDiv := x.pDiv }
  | .reserved => Inputs.zero

end Sys2Proof.Machine
end

