-- ==== Sys2Proof/Certificates/Slice0/Pseudocode.lean ====
section
/-! DEFINITION. The pseudocode of the seven operations (R110 to R112, R150, R151, R180, R181) and the cause tables of R201
and R202, transcribed as the spec prints them: every field at its written-out bit position, with no use of the layout
tables, of the assembly or of the extraction that the machine runs on. The statements of Obligations.lean hold the machine
against this text. -/

namespace Sys2Proof.Spec

open Sys2Proof Sys2Proof.Machine

/-- `inv[k] <- 1` or `unk[k] <- 1`, where the field is bad. -/
def markIf (k : Nat) (bad : Bool) : BitVec 16 := if bad then 1#16 <<< k else 0

/-- `zext_32(in.p_flags[k])`. -/
def flag (x : Inputs) (k : Nat) : Word := if x.pFlags.getLsbD k then 1 else 0

/-- `out.q_flags[k] <- R[b]`. -/
def flagFrom (r : Word) (b k : Nat) : BitVec 16 := if r.getLsbD b then 1#16 <<< k else 0

/-- The value or the raw code a `q_` output takes. -/
def carried : Reading → Word
  | .known v => v
  | .unknown raw => raw

/-- The field is unrecognised. -/
def isUnknown : Reading → Bool
  | .known _ => false
  | .unknown _ => true

/-- T55X7.ENC (R110). -/
def t55x7Enc (x : Inputs) : Outputs :=
  match blk3Enc x.pMaxblk, pskEnc x.pPsk, mod55Enc x.pMod, clkEnc x.pDiv with
  | some maxblk, some psk, some mod, some div =>
    { status := .ok, err := 0,
      regOut := flag x 0 <<< 0 ||| flag x 1 <<< 3 ||| flag x 2 <<< 4 ||| zext maxblk <<< 5 ||| flag x 4 <<< 9
        ||| zext psk <<< 10 ||| zext mod <<< 12 ||| flag x 7 <<< 17 ||| zext div <<< 18,
      qMod := 0, qDiv := 0, qPsk := 0, qMaxblk := 0, qNblocks := 0, qFlags := 0, qResidue := 0 }
  | maxblk, psk, mod, div =>
    { status := .invalidField,
      err := markIf 3 maxblk.isNone ||| markIf 5 psk.isNone ||| markIf 6 mod.isNone ||| markIf 8 div.isNone,
      regOut := 0, qMod := 0, qDiv := 0, qPsk := 0, qMaxblk := 0, qNblocks := 0, qFlags := 0, qResidue := 0 }

/-- T55X7.DEC (R111). -/
def t55x7Dec (r : Word) : Outputs :=
  let psk := pskDec (r.extractLsb' 10 2)
  let mod := mod55Dec (r.extractLsb' 12 5)
  let unk := markIf 5 (isUnknown psk) ||| markIf 6 (isUnknown mod)
  { status := if unk = 0 then .ok else .unrecognizedField, err := unk, regOut := 0,
    qMod := (carried mod).setWidth 5, qDiv := carried (clkDec (r.extractLsb' 18 3)), qPsk := carried psk,
    qMaxblk := zext (r.extractLsb' 5 3), qNblocks := 0,
    qFlags := flagFrom r 0 0 ||| flagFrom r 3 1 ||| flagFrom r 4 2 ||| flagFrom r 9 4 ||| flagFrom r 17 7,
    qResidue := r &&& 0xFFE00106 }

/-- T55X7.CLKBIT (R112). -/
def t55x7Clkbit (x : Inputs) : Outputs :=
  match clkEnc x.pDiv with
  | some c =>
    { status := .ok, err := 0, regOut := zext c,
      qMod := 0, qDiv := 0, qPsk := 0, qMaxblk := 0, qNblocks := 0, qFlags := 0, qResidue := 0 }
  | none =>
    { status := .invalidField, err := 0x0100, regOut := 0,
      qMod := 0, qDiv := 0, qPsk := 0, qMaxblk := 0, qNblocks := 0, qFlags := 0, qResidue := 0 }

/-- T5555.ENC (R150), with `FW` and `PS` the parameters of R8. -/
def t5555Enc (cfg : Config) (x : Inputs) : Outputs :=
  match blk3Enc x.pMaxblk, mod5555Enc x.pMod, pskEnc x.pPsk, rate6Enc x.pDiv with
  | some maxblk, some mod, some psk, some div =>
    { status := .ok, err := 0,
      regOut := flag x 0 <<< 0 ||| zext maxblk <<< 1 ||| zext mod <<< 4 ||| flag x 3 <<< 7 ||| zext psk <<< 8
        ||| flag x 5 <<< 10 ||| flag x 6 <<< 11 ||| zext div <<< 12 ||| flag x 8 <<< cfg.fwBit
        ||| flag x 9 <<< cfg.psBit,
      qMod := 0, qDiv := 0, qPsk := 0, qMaxblk := 0, qNblocks := 0, qFlags := 0, qResidue := 0 }
  | maxblk, mod, psk, div =>
    { status := .invalidField,
      err := markIf 1 maxblk.isNone ||| markIf 2 mod.isNone ||| markIf 4 psk.isNone ||| markIf 7 div.isNone,
      regOut := 0, qMod := 0, qDiv := 0, qPsk := 0, qMaxblk := 0, qNblocks := 0, qFlags := 0, qResidue := 0 }

/-- T5555.DEC (R151), with the field mask of R75. -/
def t5555Dec (cfg : Config) (r : Word) : Outputs :=
  let psk := pskDec (r.extractLsb' 8 2)
  let unk := markIf 4 (isUnknown psk)
  { status := if unk = 0 then .ok else .unrecognizedField, err := unk, regOut := 0,
    qMod := (carried (mod5555Dec (r.extractLsb' 4 3))).setWidth 5,
    qDiv := carried (rate6Dec (r.extractLsb' 12 6)), qPsk := carried psk,
    qMaxblk := zext (r.extractLsb' 1 3), qNblocks := 0,
    qFlags := flagFrom r 0 0 ||| flagFrom r 7 3 ||| flagFrom r 10 5 ||| flagFrom r 11 6 ||| flagFrom r cfg.fwBit 8
      ||| flagFrom r cfg.psBit 9,
    qResidue := r &&& ~~~ (0x0003FFFF#32 ||| 1#32 <<< cfg.fwBit ||| 1#32 <<< cfg.psBit) }

/-- EM4X05.ENC (R180). -/
def em4x05Enc (cfg : Config) (x : Inputs) : Outputs :=
  match rate6Enc x.pDiv, mod4305Enc x.pMod, pskEnc x.pPsk, nbEnc cfg x.pNblocks with
  | some div, some mod, some psk, some nb =>
    { status := .ok, err := 0,
      regOut := zext div ||| zext mod <<< 6 ||| zext psk <<< 10 ||| zext nb <<< 14 ||| flag x 4 <<< 18
        ||| flag x 5 <<< 19 ||| flag x 6 <<< 20 ||| flag x 7 <<< 21 ||| flag x 8 <<< 22 ||| flag x 9 <<< 23
        ||| flag x 10 <<< 24,
      qMod := 0, qDiv := 0, qPsk := 0, qMaxblk := 0, qNblocks := 0, qFlags := 0, qResidue := 0 }
  | div, mod, psk, nb =>
    { status := .invalidField,
      err := markIf 0 div.isNone ||| markIf 1 mod.isNone ||| markIf 2 psk.isNone ||| markIf 3 nb.isNone,
      regOut := 0, qMod := 0, qDiv := 0, qPsk := 0, qMaxblk := 0, qNblocks := 0, qFlags := 0, qResidue := 0 }

/-- EM4X05.DEC (R181). -/
def em4x05Dec (cfg : Config) (r : Word) : Outputs :=
  let mod := mod4305Dec (r.extractLsb' 6 4)
  let psk := pskDec (r.extractLsb' 10 2)
  let nb := nbDec cfg (r.extractLsb' 14 4)
  let unk := markIf 1 (isUnknown mod) ||| markIf 2 (isUnknown psk) ||| markIf 3 (isUnknown nb)
  { status := if unk = 0 then .ok else .unrecognizedField, err := unk, regOut := 0,
    qMod := (carried mod).setWidth 5, qDiv := carried (rate6Dec (r.extractLsb' 0 6)), qPsk := carried psk,
    qMaxblk := 0, qNblocks := carried nb,
    qFlags := flagFrom r 18 4 ||| flagFrom r 19 5 ||| flagFrom r 20 6 ||| flagFrom r 21 7 ||| flagFrom r 22 8
      ||| flagFrom r 23 9 ||| flagFrom r 24 10,
    qResidue := r &&& 0xFE003000 }

/-- `p_psk` not 2, 4 or 8. -/
def badPsk (x : Inputs) : Prop := x.pPsk ≠ 2 ∧ x.pPsk ≠ 4 ∧ x.pPsk ≠ 8

/-- `p_div` odd, below 2 or above 128. -/
def badRate (x : Inputs) : Prop := x.pDiv.toNat % 2 = 1 ∨ x.pDiv.toNat < 2 ∨ 128 < x.pDiv.toNat

/-- `p_div` not in {8, 16, 32, 40, 50, 64, 100, 128}. -/
def badClock (x : Inputs) : Prop := x.pDiv.toNat ∉ [8, 16, 32, 40, 50, 64, 100, 128]

/-- The causes of InvalidField (R201): the rows of its table, by operation and field id. -/
def invalidCause (cfg : Config) (i : Instr) (x : Inputs) (k : Nat) : Prop :=
  match i with
  | .t55x7Enc =>
    k = 3 ∧ 7 < x.pMaxblk.toNat ∨ k = 5 ∧ badPsk x ∨ k = 6 ∧ 10 < x.pMod.toNat ∨ k = 8 ∧ badClock x
  | .t5555Enc =>
    k = 1 ∧ 7 < x.pMaxblk.toNat ∨ k = 2 ∧ x.pMod.toNat ∉ [0, 1, 2, 3, 4, 5, 8, 9] ∨ k = 4 ∧ badPsk x ∨ k = 7 ∧ badRate x
  | .em4x05Enc =>
    k = 0 ∧ badRate x ∨ k = 1 ∧ x.pMod.toNat ∉ [0, 1, 2, 3, 4, 5, 8, 9, 11] ∨ k = 2 ∧ badPsk x
      ∨ k = 3 ∧ (x.pNblocks.toNat < cfg.nbMin ∨ 11 < x.pNblocks.toNat)
  | .t55x7Clkbit => k = 8 ∧ badClock x
  | .t55x7Dec | .t5555Dec | .em4x05Dec | .reservedOp => False

/-- The causes of UnrecognizedField (R202): the rows of its table, by operation and field id, on the register value. -/
def unrecognizedCause (cfg : Config) (i : Instr) (r : Word) (k : Nat) : Prop :=
  match i with
  | .t55x7Dec =>
    k = 5 ∧ (r.extractLsb' 10 2).toNat = 3
      ∨ k = 6 ∧ (r.extractLsb' 12 5).toNat ∉ [0, 1, 2, 3, 4, 5, 6, 7, 8, 16, 24]
  | .t5555Dec => k = 4 ∧ (r.extractLsb' 8 2).toNat = 3
  | .em4x05Dec =>
    k = 1 ∧ 9 ≤ (r.extractLsb' 6 4).toNat ∨ k = 2 ∧ (r.extractLsb' 10 2).toNat = 3
      ∨ k = 3 ∧ (r.extractLsb' 14 4).toNat < 4 + cfg.nbMin
  | .t55x7Enc | .t5555Enc | .em4x05Enc | .t55x7Clkbit | .reservedOp => False

end Sys2Proof.Spec
end

