-- ==== Sys2Proof/Certificates/Slice0/Obligations.lean ====
section
/-! DEFINITION. The statements for the provers. Each docstring names the rules of the spec it formalises. -/

open Sys2Proof Sys2Proof.Machine

-- Operation select, step and run.

/-- R61 and the rows of spec/opcode_table.json: each value of `op` selects the operation of its row. -/
def Obligations.OpSelectFollowsTheTable : Prop :=
  decodeTableWord 8 0b000 = some .t55x7Enc
    ∧ decodeTableWord 8 0b001 = some .t55x7Dec
    ∧ decodeTableWord 8 0b010 = some .t5555Enc
    ∧ decodeTableWord 8 0b011 = some .t5555Dec
    ∧ decodeTableWord 8 0b100 = some .em4x05Enc
    ∧ decodeTableWord 8 0b101 = some .em4x05Dec
    ∧ decodeTableWord 8 0b110 = some .t55x7Clkbit
    ∧ decodeTableWord 8 0b111 = some .reservedOp

/-- R61: the eight values of `op` and the eight rows correspond one to one. -/
def Obligations.OpDecodeAndEncodeAgree : Prop :=
  (∀ i : Instr, decodeOp (encodeOp i) = i) ∧ (∀ op : BitVec 3, encodeOp (decodeOp op) = op)

/-- R239 and R60: a step issues the caller's next evaluation, with its values on the input ports, and performs the
operation its `op` selects. An operation placed by `withFetchWord` is the next one performed. That the program stands in
the state is the model's choice (log entry 4), and so is the reading of a table word (log entry 6). -/
def Obligations.StepPerformsTheIssuedOperation : Prop :=
  (∀ (s : State) (x : Inputs) (rest : List Inputs), s.program = x :: rest →
      step s = exec (decodeOp x.op) { s with inp := x, program := rest })
    ∧ (∀ (s : State) (nbits w : Nat) (i : Instr), decodeTableWord nbits w = some i →
      ∃ x, step (s.withFetchWord nbits w) = exec i { s with inp := x, program := s.program.tail })

/-- R239: the run ends exactly where the caller's program holds no further evaluation. The form of the end, a fault, is the
model's (log entry 4). -/
def Obligations.RunEndsExactlyWithTheProgram : Prop :=
  ∀ s : State, step s = .fault .runEnded ↔ s.program = []

/-- R8: the legal values of the three parameters, their defaults, and the refusal to instantiate a block with illegal ones. -/
def Obligations.IllegalParametersAreRefused : Prop :=
  (∀ c : Config, c.legal = true ↔
      (c.nbMin = 0 ∨ c.nbMin = 1) ∧ (18 ≤ c.fwBit ∧ c.fwBit ≤ 31) ∧ (18 ≤ c.psBit ∧ c.psBit ≤ 31) ∧ c.fwBit ≠ c.psBit)
    ∧ State.reset.config = { nbMin := 0, fwBit := 18, psBit := 19 }
    ∧ (∀ c : Config, c.legal = true → instantiate c = .next { State.reset with config := c })
    ∧ (∀ c : Config, c.legal = false → instantiate c = .refused .illegalParameters)

/-- Where the parameters stand in a state and fail their check, every operation is refused: the model's choice of where to
check R8 a second time (log entry 2). -/
def Obligations.OperationsOfIllegalParametersAreRefused : Prop :=
  ∀ (i : Instr) (s : State), s.config.legal = false → exec i s = .refused .illegalParameters

/-- R26: a step with legal parameters completes, and its outputs are the function of R26 of the parameters and the issued
inputs. That the program and the outputs of the run stand in the state is the model's choice (log entry 4). -/
def Obligations.StepComputesTheEvaluation : Prop :=
  ∀ (s : State) (x : Inputs) (rest : List Inputs), s.config.legal = true → s.program = x :: rest →
    step s = .next { s with inp := x, program := rest, results := s.results ++ [tcrc s.config x] }

/-- R47 and R26: the outputs of an evaluation depend on the parameters and on the inputs issued for it, and on nothing that
an earlier evaluation left. That the caller's program stands in the state is the model's choice (log entry 4). -/
def Obligations.OutputsDependOnlyOnTheIssuedInputs : Prop :=
  ∀ (s t s' t' : State) (x : Inputs) (p q : List Inputs), s.program = x :: p → t.program = x :: q → s.config = t.config →
    step s = .next s' → step t = .next t' → readOutputs s' = readOutputs t'

/-- R239: the run of a program performs every evaluation of it, in order, and leaves the list of their outputs. That both
lists stand in the state is the model's choice (log entry 4). -/
def Obligations.RunPerformsEveryEvaluation : Prop :=
  ∀ s : State, s.config.legal = true →
    Host.Core.run Sys2Proof.core s.program.length s
      = .next { s with
          inp := s.program.getLast?.getD s.inp, program := [],
          results := s.results ++ s.program.map (tcrc s.config) }

/-- R47: in any order of a program's evaluations, each gives the same outputs. The program in the state is the model's
choice (log entry 4). -/
def Obligations.EveryInterleavingGivesTheSameOutputs : Prop :=
  ∀ (s : State) (xs ys : List Inputs), s.config.legal = true → xs.Perm ys →
    ∃ t u : State,
      Host.Core.run Sys2Proof.core xs.length (setProgram xs s) = .next t
        ∧ Host.Core.run Sys2Proof.core ys.length (setProgram ys s) = .next u
        ∧ (xs.zip (t.results.drop s.results.length)).Perm (ys.zip (u.results.drop s.results.length))

/-- R8, R230 and R231: before the first evaluation the parameters have their defaults and no evaluation has left outputs. That
the program is a field of the state, empty before a caller loads it, is the model's choice (log entry 4), and so are the
zeros on the input ports (log entry 3). -/
def Obligations.ResetState : Prop :=
  State.reset.config = Config.default
    ∧ State.reset.program = []
    ∧ State.reset.results = []
    ∧ State.reset.inp = Inputs.zero

/-- The output ports carry no value before the first evaluation (R231), reading them there is a fault (D26 of spec/92, I9 of
spec/93), and every evaluation leaves outputs that can be read. That the ports present the last entry of the outputs of the
run, and so carry no value exactly where that list is empty, is the model's choice (log entry 5). -/
def Obligations.OutputsExistOnlyAfterAnEvaluation : Prop :=
  readOutputs State.reset = .error .noEvaluation
    ∧ (∀ s : State, readOutputs s = .error .noEvaluation ↔ s.results = [])
    ∧ (∀ (i : Instr) (s t : State), exec i s = .next t → ∃ o, readOutputs t = .ok o ∧ t.results = s.results ++ [o])

/-- R20, R21 and R23: what an evaluation leaves unchanged, for all eight operations: the parameters, the input ports, the
rest of the program, and the outputs of every earlier evaluation. It adds one set of outputs and nothing else. There is no
memory and no register to frame (R40). -/
def Obligations.EvaluationFrame : Prop :=
  ∀ (i : Instr) (s t : State), exec i s = .next t →
    t.config = s.config ∧ t.inp = s.inp ∧ t.program = s.program ∧ ∃ o, t.results = s.results ++ [o]

-- The operations, each against its pseudocode.

/-- R110: T55X7.ENC completes with the outputs of its pseudocode. -/
def Obligations.T55x7EncodeResult : Prop :=
  ∀ s : State, s.config.legal = true →
    exec .t55x7Enc s = .next { s with results := s.results ++ [Spec.t55x7Enc s.inp] }

/-- R111: T55X7.DEC completes with the outputs of its pseudocode. -/
def Obligations.T55x7DecodeResult : Prop :=
  ∀ s : State, s.config.legal = true →
    exec .t55x7Dec s = .next { s with results := s.results ++ [Spec.t55x7Dec s.inp.regIn] }

/-- R112: T55X7.CLKBIT completes with the outputs of its pseudocode. -/
def Obligations.ClockBitResult : Prop :=
  ∀ s : State, s.config.legal = true →
    exec .t55x7Clkbit s = .next { s with results := s.results ++ [Spec.t55x7Clkbit s.inp] }

/-- R150: T5555.ENC completes with the outputs of its pseudocode, for all legal positions of the two movable flags. -/
def Obligations.T5555EncodeResult : Prop :=
  ∀ s : State, s.config.legal = true →
    exec .t5555Enc s = .next { s with results := s.results ++ [Spec.t5555Enc s.config s.inp] }

/-- R151: T5555.DEC completes with the outputs of its pseudocode, for all legal positions of the two movable flags. -/
def Obligations.T5555DecodeResult : Prop :=
  ∀ s : State, s.config.legal = true →
    exec .t5555Dec s = .next { s with results := s.results ++ [Spec.t5555Dec s.config s.inp.regIn] }

/-- R180: EM4X05.ENC completes with the outputs of its pseudocode. -/
def Obligations.Em4x05EncodeResult : Prop :=
  ∀ s : State, s.config.legal = true →
    exec .em4x05Enc s = .next { s with results := s.results ++ [Spec.em4x05Enc s.config s.inp] }

/-- R181: EM4X05.DEC completes with the outputs of its pseudocode. -/
def Obligations.Em4x05DecodeResult : Prop :=
  ∀ s : State, s.config.legal = true →
    exec .em4x05Dec s = .next { s with results := s.results ++ [Spec.em4x05Dec s.config s.inp.regIn] }

/-- R62, and R203's first sentence: the reserved operation completes with status ILLEGAL_OP and 0 on every other output,
whatever the inputs are. That the model presents these outputs where R203 advises a refusal is log entry 1. -/
def Obligations.ReservedOpResult : Prop :=
  ∀ s : State, s.config.legal = true →
    exec .reservedOp s = .next { s with
      results := s.results ++ [
        { status := .illegalOp, err := 0, regOut := 0, qMod := 0, qDiv := 0, qPsk := 0, qMaxblk := 0, qNblocks := 0,
          qFlags := 0, qResidue := 0 }] }

-- Status, error mask and outputs over all operations.

/-- R200: the four status values and their codes, each code the code of one value. -/
def Obligations.StatusCodesAsTabled : Prop :=
  statusCode .ok = 0 ∧ statusCode .invalidField = 1 ∧ statusCode .unrecognizedField = 2 ∧ statusCode .illegalOp = 3
    ∧ (∀ b : BitVec 2, ∃ v : Status, statusCode v = b)

/-- R201: when InvalidField is raised and what it records: the status, exactly the error bits whose causes hold, and 0 on
`reg_out` and on every decode output. No other operation raises it. -/
def Obligations.InvalidFieldCausesAndRecord : Prop :=
  ∀ (i : Instr) (s t : State) (o : Outputs), exec i s = .next t → readOutputs t = .ok o →
    (o.status = .invalidField ↔ ∃ k, Spec.invalidCause s.config i s.inp k)
      ∧ (o.status = .invalidField →
          (∀ k, k < 16 → (o.err.getLsbD k = true ↔ Spec.invalidCause s.config i s.inp k))
            ∧ o.regOut = 0 ∧ o.qMod = 0 ∧ o.qDiv = 0 ∧ o.qPsk = 0 ∧ o.qMaxblk = 0 ∧ o.qNblocks = 0 ∧ o.qFlags = 0
            ∧ o.qResidue = 0)

/-- R202: when UnrecognizedField is raised and what it records: exactly the error bits whose causes hold, each field's raw
code where it is unrecognised and its decoded value where it is not, the residue as without the error, and `reg_out` 0. No
other operation raises it. -/
def Obligations.UnrecognizedFieldCausesAndRecord : Prop :=
  ∀ (i : Instr) (s t : State) (o : Outputs), exec i s = .next t → readOutputs t = .ok o →
    (o.status = .unrecognizedField ↔ ∃ k, Spec.unrecognizedCause s.config i s.inp.regIn k)
      ∧ (o.status = .unrecognizedField → o.regOut = 0
          ∧ (∀ k, k < 16 → (o.err.getLsbD k = true ↔ Spec.unrecognizedCause s.config i s.inp.regIn k))
          ∧ ∀ fam, roleOf i = .decode fam →
              o.qResidue = residueOf (layoutOf s.config fam) s.inp.regIn
                ∧ ∀ f ∈ layoutOf s.config fam,
                    readingOf s.config f (extractField f s.inp.regIn)
                      = if o.err.getLsbD f.id then .unknown (outputValue o f) else .known (outputValue o f))

/-- R205: each evaluation reports exactly one status: ILLEGAL_OP for the reserved operation and for no other, no
INVALID_FIELD from a decode, no UNRECOGNIZED_FIELD from an encode or CLKBIT, and OK exactly where the error mask of another
operation is empty. -/
def Obligations.EachOperationReportsItsOwnStatuses : Prop :=
  ∀ (i : Instr) (s t : State) (o : Outputs), exec i s = .next t → readOutputs t = .ok o →
    (o.status = .illegalOp ↔ i = .reservedOp)
      ∧ (i ≠ .reservedOp → (o.status = .ok ↔ o.err = 0))
      ∧ (∀ fam, roleOf i = .decode fam → o.status ≠ .invalidField)
      ∧ (∀ fam, roleOf i = .encode fam → o.status ≠ .unrecognizedField)
      ∧ (roleOf i = .clkbit → o.status ≠ .unrecognizedField)

/-- R25 with the "written by" column of R24: an output the operation does not write is 0, and so is every bit of `q_flags`
and `err` that is no field id of the family. -/
def Obligations.UnwrittenOutputsAreZero : Prop :=
  ∀ (i : Instr) (s t : State) (o : Outputs), exec i s = .next t → readOutputs t = .ok o →
    (∀ fam, roleOf i = .encode fam →
        o.qMod = 0 ∧ o.qDiv = 0 ∧ o.qPsk = 0 ∧ o.qMaxblk = 0 ∧ o.qNblocks = 0 ∧ o.qFlags = 0 ∧ o.qResidue = 0
          ∧ o.err &&& ~~~ idMask fam = 0)
      ∧ (roleOf i = .clkbit →
        o.qMod = 0 ∧ o.qDiv = 0 ∧ o.qPsk = 0 ∧ o.qMaxblk = 0 ∧ o.qNblocks = 0 ∧ o.qFlags = 0 ∧ o.qResidue = 0
          ∧ o.err &&& ~~~ idMask .t55x7 = 0)
      ∧ (∀ fam, roleOf i = .decode fam →
        o.regOut = 0 ∧ (fam = .em4x05 → o.qMaxblk = 0) ∧ (fam ≠ .em4x05 → o.qNblocks = 0)
          ∧ o.qFlags &&& ~~~ flagMask fam = 0 ∧ o.err &&& ~~~ idMask fam = 0)
      ∧ (roleOf i = .reserved → o = { Outputs.zero with status := .illegalOp })

/-- R23 and R64: an input port that the operation does not read, and a `p_flags` bit that is no boolean field of the family,
has no effect on the outputs. -/
def Obligations.UnreadInputsHaveNoEffect : Prop :=
  ∀ (i : Instr) (s t : State), exec i s = .next t →
    exec i { s with inp := readInputs i s.inp } = .next { t with inp := readInputs i s.inp }

/-- R204: unassigned register bits never cause an error: changing them changes the residue of a decode and no other output,
the residue of a decode is those bits, and an encode leaves every one of them 0. -/
def Obligations.UnassignedBitsReachOnlyTheResidue : Prop :=
  (∀ (i : Instr) (fam : Family) (s t t' : State) (r : Word) (o o' : Outputs), roleOf i = .decode fam →
      r &&& fieldMask (layoutOf s.config fam) = s.inp.regIn &&& fieldMask (layoutOf s.config fam) →
      exec i s = .next t → readOutputs t = .ok o →
      exec i { s with inp := { s.inp with regIn := r } } = .next t' → readOutputs t' = .ok o' →
      o' = { o with qResidue := r &&& ~~~ fieldMask (layoutOf s.config fam) })
    ∧ (∀ (i : Instr) (fam : Family) (s t : State) (o : Outputs), roleOf i = .encode fam → exec i s = .next t →
      readOutputs t = .ok o → o.regOut &&& ~~~ fieldMask (layoutOf s.config fam) = 0)

/-- Every step keeps the invariant: legal parameters, and coherent outputs of every evaluation of the run (R200 to R205,
R24, R25). The list of the run's outputs is the model's choice (log entry 4). -/
def Obligations.StepKeepsTheInvariant : Prop :=
  ∀ s t : State, machineInvariant s → step s = .next t → machineInvariant t

/-- The machine before its first evaluation meets the invariant, and so does every block that instantiates. -/
def Obligations.InstantiationMeetsTheInvariant : Prop :=
  machineInvariant State.reset ∧ ∀ (c : Config) (s : State), instantiate c = .next s → machineInvariant s

-- The helper functions and tables.

/-- R100, R101 and R115: the clock-divisor table in both directions, injective on its eight divisors and failing on every
other 32-bit value. -/
def Obligations.ClockDivisorTable : Prop :=
  (∀ d : Word, clkEnc d =
      if d = 8 then some 0 else if d = 16 then some 1 else if d = 32 then some 2 else if d = 40 then some 3
      else if d = 50 then some 4 else if d = 64 then some 5 else if d = 100 then some 6 else if d = 128 then some 7
      else none)
    ∧ (∀ c : BitVec 3, [8, 16, 32, 40, 50, 64, 100, 128][c.toNat]?.map Reading.known = some (clkDec c))
    ∧ (∀ (d e : Word) (c : BitVec 3), clkEnc d = some c → clkEnc e = some c → d = e)
    ∧ (∀ (d : Word) (c : BitVec 3), clkEnc d = some c ↔ clkDec c = .known d)

/-- R102, R103 and R106: the PSK carrier codes in both directions, and the max-block check. -/
def Obligations.PskAndMaxBlockCodes : Prop :=
  (∀ p : Word, pskEnc p = if p = 2 then some 0 else if p = 4 then some 1 else if p = 8 then some 2 else none)
    ∧ (pskDec 0 = .known 2 ∧ pskDec 1 = .known 4 ∧ pskDec 2 = .known 8 ∧ pskDec 3 = .unknown 3)
    ∧ (∀ v : Word, v.toNat ≤ 7 → blk3Enc v = some (v.extractLsb' 0 3))
    ∧ (∀ v : Word, 7 < v.toNat → blk3Enc v = none)
    ∧ (∀ (cfg : Config) (f : Field) (code : Word), f.codec = .maxblk → readingOf cfg f code = .known code)

/-- R104, R105, R142, R143, R170 and R171: the modulation codes of the three families, by symbol code and by field code. -/
def Obligations.ModulationCodes : Prop :=
  (∀ s : BitVec 4, mod55Enc s = [0, 1, 2, 3, 4, 5, 6, 7, 8, 16, 24][s.toNat]?)
    ∧ (∀ c : BitVec 5, mod55Dec c =
        if c.toNat ≤ 8 then .known (zext c) else if c = 16 then .known 9 else if c = 24 then .known 10 else .unknown (zext c))
    ∧ (∀ s : BitVec 4, mod5555Enc s =
        [some 7, some 1, some 2, some 3, some 4, some 5, none, none, some 0, some 6][s.toNat]?.getD none)
    ∧ (∀ c : BitVec 3, some (mod5555Dec c) = [8, 1, 2, 3, 4, 5, 9, 0][c.toNat]?.map Reading.known)
    ∧ (∀ s : BitVec 4, mod4305Enc s =
        [some 0, some 4, some 5, some 6, some 7, some 8, none, none, some 1, some 2, none, some 3][s.toNat]?.getD none)
    ∧ (∀ c : BitVec 4, mod4305Dec c =
        ([0, 8, 9, 11, 1, 2, 3, 4, 5][c.toNat]?.map Reading.known).getD (.unknown (zext c)))

/-- R140 and R141: the computed bit-rate code, its legal divisors and nothing else, and the two inverse laws. -/
def Obligations.BitRateCodes : Prop :=
  (∀ d : Word, d.getLsbD 0 = false → 2 ≤ d.toNat → d.toNat ≤ 128 →
      ∃ c : BitVec 6, rate6Enc d = some c ∧ 2 * c.toNat + 2 = d.toNat)
    ∧ (∀ d : Word, d.getLsbD 0 = true ∨ d.toNat < 2 ∨ 128 < d.toNat → rate6Enc d = none)
    ∧ (∀ c : BitVec 6, rate6Dec c = .known (2 * zext c + 2))
    ∧ (∀ c : BitVec 6, rate6Enc (2 * zext c + 2) = some c)
    ∧ (∀ (d : Word) (c : BitVec 6), rate6Enc d = some c → rate6Dec c = .known d)

/-- R172 and R173: the biased block count, checked on the whole value, and its decode, for both legal values of
`EM4X05_NB_MIN`. -/
def Obligations.BlockCountCodes : Prop :=
  ∀ cfg : Config, cfg.legal = true →
    (∀ n : Word, cfg.nbMin ≤ n.toNat ∧ n.toNat ≤ 11 → ∃ c : BitVec 4, nbEnc cfg n = some c ∧ c.toNat = n.toNat + 4)
      ∧ (∀ n : Word, n.toNat < cfg.nbMin ∨ 11 < n.toNat → nbEnc cfg n = none)
      ∧ (∀ c : BitVec 4, 4 + cfg.nbMin ≤ c.toNat → nbDec cfg c = .known (zext c - 4))
      ∧ (∀ c : BitVec 4, c.toNat < 4 + cfg.nbMin → nbDec cfg c = .unknown (zext c))

-- The layouts.

/-- R76: in each family's layout, for all legal parameters, every field lies within bits 31:0 and the fields are pairwise
disjoint; and parameters that break this do not instantiate. -/
def Obligations.LayoutsAreDisjoint : Prop :=
  (∀ (cfg : Config) (fam : Family), cfg.legal = true →
      Layout.wellFormed (layoutOf cfg fam) = true
        ∧ (layoutOf cfg fam).Pairwise (fun f g => fieldBits f &&& fieldBits g = 0)
        ∧ ∀ f ∈ layoutOf cfg fam, f.shift + f.width ≤ 32)
    ∧ (∀ cfg : Config, Layout.wellFormed (t5555Layout cfg) = false → instantiate cfg = .refused .illegalParameters)

/-- R75: the field masks of the three families, with the default parameters and, for the T5555, with all others. -/
def Obligations.FieldMasks : Prop :=
  fieldMask t55x7Layout = 0x001FFEF9
    ∧ fieldMask (t5555Layout Config.default) = 0x000FFFFF
    ∧ fieldMask em4x05Layout = 0x01FFCFFF
    ∧ (∀ cfg : Config, cfg.legal = true →
      fieldMask (t5555Layout cfg) = 0x0003FFFF#32 ||| 1#32 <<< cfg.fwBit ||| 1#32 <<< cfg.psBit)
    ∧ (∀ (l : Layout) (r : Word), residueOf l r = r &&& ~~~ fieldMask l)

-- The laws.

/-- R113: T55X7.ENC of a legal parameter record, then T55X7.DEC of the register value, gives the record back, field for
field, with status OK and residue 0. -/
def Obligations.T55x7DecodeInvertsEncode : Prop :=
  ∀ s : State, s.config.legal = true → legalT55x7 s.inp →
    ∃ r : Word, exec .t55x7Enc s = .next { s with results := s.results ++ [okRegister r] }
      ∧ exec .t55x7Dec { s with inp := decodeInputs .t55x7 r } = .next { s with
          inp := decodeInputs .t55x7 r,
          results := s.results ++ [
            { Outputs.zero with
              qMod := s.inp.pMod.setWidth 5, qDiv := s.inp.pDiv, qPsk := s.inp.pPsk, qMaxblk := s.inp.pMaxblk,
              qFlags := s.inp.pFlags }] }

/-- R114: re-encoding the decode of a T55x7 register value with no residue gives the value back where the decode's status is
OK. Where it is UNRECOGNIZED_FIELD, the decoded record has no encode input. -/
def Obligations.T55x7EncodeInvertsDecode : Prop :=
  ∀ (s t : State) (o : Outputs), s.inp.regIn &&& 0xFFE00106 = 0 → exec .t55x7Dec s = .next t → readOutputs t = .ok o →
    (o.status = .ok →
        ∃ x, reencode s.config .t55x7 o = .ok x
          ∧ exec .t55x7Enc { s with inp := x }
            = .next { s with inp := x, results := s.results ++ [okRegister s.inp.regIn] })
      ∧ (o.status = .unrecognizedField → reencode s.config .t55x7 o = .error .unrecognisedField)

/-- R153: both round trips of the T5555. -/
def Obligations.T5555RoundTrips : Prop :=
  (∀ s : State, s.config.legal = true → legalT5555 s.inp →
      ∃ r : Word, exec .t5555Enc s = .next { s with results := s.results ++ [okRegister r] }
        ∧ exec .t5555Dec { s with inp := decodeInputs .t5555 r } = .next { s with
            inp := decodeInputs .t5555 r,
            results := s.results ++ [
              { Outputs.zero with
                qMod := s.inp.pMod.setWidth 5, qDiv := s.inp.pDiv, qPsk := s.inp.pPsk, qMaxblk := s.inp.pMaxblk,
                qFlags := s.inp.pFlags }] })
    ∧ (∀ s : State, s.config.legal = true → s.inp.regIn &&& ~~~ fieldMask (t5555Layout s.config) = 0 →
      s.inp.regIn.extractLsb' 8 2 ≠ 3 →
      ∃ (o : Outputs) (x : Inputs), exec .t5555Dec s = .next { s with results := s.results ++ [o] }
        ∧ reencode s.config .t5555 o = .ok x
        ∧ exec .t5555Enc { s with inp := x }
          = .next { s with inp := x, results := s.results ++ [okRegister s.inp.regIn] })

/-- R183: both round trips of the EM4x05. -/
def Obligations.Em4x05RoundTrips : Prop :=
  (∀ s : State, s.config.legal = true → legalEm4x05 s.config s.inp →
      ∃ r : Word, exec .em4x05Enc s = .next { s with results := s.results ++ [okRegister r] }
        ∧ exec .em4x05Dec { s with inp := decodeInputs .em4x05 r } = .next { s with
            inp := decodeInputs .em4x05 r,
            results := s.results ++ [
              { Outputs.zero with
                qMod := s.inp.pMod.setWidth 5, qDiv := s.inp.pDiv, qPsk := s.inp.pPsk, qNblocks := s.inp.pNblocks,
                qFlags := s.inp.pFlags }] })
    ∧ (∀ (s t : State) (o : Outputs), s.inp.regIn &&& 0xFE003000 = 0 → exec .em4x05Dec s = .next t →
      readOutputs t = .ok o → o.status = .ok →
      ∃ x, reencode s.config .em4x05 o = .ok x
        ∧ exec .em4x05Enc { s with inp := x }
          = .next { s with inp := x, results := s.results ++ [okRegister s.inp.regIn] })

/-- V8 in the record view of R28, for every family: where an encode of a parameter record gives OK, decoding its register
value completes with status OK and the record of the same fields, all known, with residue 0. -/
def Obligations.EncodedRecordsDecodeInEveryFamily : Prop :=
  ∀ (fam : Family) (s t : State) (o : Outputs), exec (encodeInstr fam) s = .next t → readOutputs t = .ok o → o.status = .ok →
    ∃ (u : State) (q : Outputs),
      exec (decodeInstr fam) { s with inp := decodeInputs fam o.regOut } = .next u
        ∧ readOutputs u = .ok q
        ∧ q.status = .ok
        ∧ decodeRecord s.config fam q = .ok {
            fields := (parameterRecord s.config fam s.inp).map fun p => (p.1, .known p.2),
            residue := 0 }

/-- R182: each of the seven EM4x05 flags is set or cleared by its own input, changes exactly its own bit of the register
value and no other output of the encode, and never makes an encode fail; a decode extracts each one from its own bit. -/
def Obligations.Em4x05FlagIndependence : Prop :=
  (∀ (s t t' : State) (o o' : Outputs) (k : Nat), 4 ≤ k → k ≤ 10 →
      exec .em4x05Enc s = .next t → readOutputs t = .ok o →
      exec .em4x05Enc { s with inp := { s.inp with pFlags := s.inp.pFlags ^^^ (1#16 <<< k) } } = .next t' →
      readOutputs t' = .ok o' →
      (o.status = .ok →
          o.regOut.getLsbD (14 + k) = s.inp.pFlags.getLsbD k
            ∧ o' = { o with regOut := o.regOut ^^^ (1#32 <<< (14 + k)) })
        ∧ (o.status ≠ .ok → o' = o))
    ∧ (∀ (s t : State) (o : Outputs) (k : Nat), 4 ≤ k → k ≤ 10 → exec .em4x05Dec s = .next t → readOutputs t = .ok o →
      o.qFlags.getLsbD k = s.inp.regIn.getLsbD (14 + k))

/-- R152: T5555.ENC rejects every divisor outside the even values 2 to 128, on its own error bit, and T5555.DEC accepts all
64 bit-rate codes. -/
def Obligations.T5555BitRateAsymmetry : Prop :=
  (∀ (s t : State) (o : Outputs), exec .t5555Enc s = .next t → readOutputs t = .ok o →
      (o.err.getLsbD 7 = true ↔ Spec.badRate s.inp) ∧ (Spec.badRate s.inp → o.status = .invalidField))
    ∧ (∀ (s t : State) (o : Outputs), exec .t5555Dec s = .next t → readOutputs t = .ok o →
      o.err.getLsbD 7 = false ∧ o.qDiv = 2 * zext (s.inp.regIn.extractLsb' 12 6) + 2)

/-- R82: the default record of each family, every field with the legal value whose code is 0 but for the EM4x05 block
count, which has its least legal value; the register values they encode to; and the T55x7 scenario of §8 of the source. -/
def Obligations.DefaultRecordsEncode : Prop :=
  ∀ s : State, s.config.legal = true →
    (∃ x : Inputs, x = defaultRecord s.config .t55x7
        ∧ (x.pFlags = 0 ∧ x.pMaxblk = 0 ∧ x.pPsk = 2 ∧ x.pMod = 0 ∧ x.pDiv = 8)
        ∧ exec .t55x7Enc { s with inp := x } = .next { s with inp := x, results := s.results ++ [okRegister 0] }
        ∧ ∃ y : Inputs, y = { x with pMod := 8, pDiv := 64, pFlags := 1#16 <<< 4 }
          ∧ exec .t55x7Enc { s with inp := y } = .next { s with
              inp := y, results := s.results ++ [okRegister 0x00148200] })
      ∧ (∃ x : Inputs, x = defaultRecord s.config .t5555
        ∧ (x.pFlags = 0 ∧ x.pMaxblk = 0 ∧ x.pPsk = 2 ∧ x.pMod = 8 ∧ x.pDiv = 2)
        ∧ exec .t5555Enc { s with inp := x } = .next { s with inp := x, results := s.results ++ [okRegister 0] })
      ∧ (∃ x : Inputs, x = defaultRecord s.config .em4x05
        ∧ (x.pFlags = 0 ∧ x.pNblocks.toNat = s.config.nbMin ∧ x.pPsk = 2 ∧ x.pMod = 0 ∧ x.pDiv = 2)
        ∧ exec .em4x05Enc { s with inp := x } = .next { s with
            inp := x,
            results := s.results ++ [okRegister (if s.config.nbMin = 0 then 0x00010000 else 0x00014000)] })

/-- R28 with R78: the record view of a decode's outputs holds exactly the reading of each field's code, known or unknown,
and the residue; so the port view loses nothing. -/
def Obligations.DecodeRecordHoldsEveryReading : Prop :=
  ∀ (fam : Family) (s t : State) (o : Outputs), exec (decodeInstr fam) s = .next t → readOutputs t = .ok o →
    decodeRecord s.config fam o = .ok {
      fields := (layoutOf s.config fam).map fun f => (f.name, readingOf s.config f (extractField f s.inp.regIn)),
      residue := residueOf (layoutOf s.config fam) s.inp.regIn }

/-- R203 and R28: the record view of the reserved operation's outputs is a refusal, for every family. -/
def Obligations.ReservedOpHasNoRecord : Prop :=
  ∀ (fam : Family) (s t : State) (o : Outputs), exec .reservedOp s = .next t → readOutputs t = .ok o →
    decodeRecord s.config fam o = .error .illegalOp ∧ reencode s.config fam o = .error .illegalOp

/-- R234: an evaluation whose status is not OK gives the register value 0, so the premise of a write-back is the status and
not the value. -/
def Obligations.FailedEvaluationsGiveRegisterZero : Prop :=
  ∀ (i : Instr) (s t : State) (o : Outputs), exec i s = .next t → readOutputs t = .ok o →
    ¬ writeBackAllowed o → o.regOut = 0

-- The caller's sequences.

/-- R84 with R235: whatever fields it changes, a read-modify-write that gives a register value keeps the unassigned bits. How
the sequence is placed in the caller's program is the model's choice (log entry 17). -/
def Obligations.RmwKeepsUnassignedBits : Prop :=
  ∀ (fam : Family) (r v : Word) (edits : List (AsmName × AsmValue)) (s t : State), rmw fam r edits s = .next (t, .value v) →
    residueOf (layoutOf s.config fam) v = residueOf (layoutOf s.config fam) r

/-- R84: a read-modify-write that names no field gives the register value back, in two evaluations, where every field of it
is recognised; where one is not, it stops after the decode with the decode's status. How the
sequence is placed in the caller's program is the model's choice (log entry 17). -/
def Obligations.RmwOfNothingOrStopped : Prop :=
  ∀ (fam : Family) (r : Word) (s : State), s.config.legal = true →
    ((∀ k, ¬ Spec.unrecognizedCause s.config (decodeInstr fam) r k) →
        ∃ t, rmw fam r [] s = .next (t, .value r) ∧ t.results.length = s.results.length + 2 ∧ t.program = s.program)
      ∧ (∀ (k : Nat) (edits : List (AsmName × AsmValue)), Spec.unrecognizedCause s.config (decodeInstr fam) r k →
        ∃ t err, rmw fam r edits s = .next (t, .stopped .unrecognizedField err)
          ∧ t.results.length = s.results.length + 1 ∧ t.program = s.program)

/-- R83: a line with no operands gives the default record for an encode, register value 0 for a decode, and divisor 8 for
CLKBIT, with 0 on every port the operation does not read; the line's `op` is the operation's. -/
def Obligations.AssemblerDefaults : Prop :=
  ∀ (cfg : Config) (i : Instr), ∃ x,
    assembleLine cfg { head := .operation i, operands := [] } = .ok (.evaluate x)
      ∧ x.op = encodeOp i
      ∧ (∀ fam, roleOf i = .encode fam → x = defaultRecord cfg fam)
      ∧ (∀ fam, roleOf i = .decode fam → x.regIn = 0)
      ∧ (roleOf i = .clkbit → x.pDiv = 8)
      ∧ x = { readInputs i x with op := encodeOp i }

/-- R83: a field operand of an encode sets that field, and no other field of the parameter record. -/
def Obligations.AssemblerOperandSetsItsFieldOnly : Prop :=
  ∀ (cfg : Config) (fam : Family) (n : FieldName) (v : AsmValue) (x y : Inputs), placeField cfg fam n v x = .ok y →
    ∀ f ∈ layoutOf cfg fam,
      (f.name ≠ n → inputValue y f = inputValue x f)
        ∧ (f.name = n → ∀ k, v = .number k → inputValue y f = BitVec.ofNat 32 k)
end

