-- ==== Sys2Proof/Laws/State.lean ====
section
/-! SUPPORT. What each update of the state, of the input ports and of the output ports leaves in each field, one lemma per
field, so that no later proof unfolds an update. -/

namespace Sys2Proof.Machine

-- The caller's updates of the state.

@[simp] theorem setProgram_config (xs : List Inputs) (s : State) : (setProgram xs s).config = s.config := rfl
@[simp] theorem setProgram_inp (xs : List Inputs) (s : State) : (setProgram xs s).inp = s.inp := rfl
@[simp] theorem setProgram_program (xs : List Inputs) (s : State) : (setProgram xs s).program = xs := rfl
@[simp] theorem setProgram_results (xs : List Inputs) (s : State) : (setProgram xs s).results = s.results := rfl

@[simp] theorem issueOp_config (s : State) (op : BitVec 3) : (issueOp s op).config = s.config := by
  unfold issueOp; split <;> rfl
@[simp] theorem issueOp_inp (s : State) (op : BitVec 3) : (issueOp s op).inp = s.inp := by
  unfold issueOp; split <;> rfl
@[simp] theorem issueOp_results (s : State) (op : BitVec 3) : (issueOp s op).results = s.results := by
  unfold issueOp; split <;> rfl
theorem issueOp_program (s : State) (op : BitVec 3) :
    ∃ x : Inputs, x.op = op ∧ (issueOp s op).program = x :: s.program.tail := by
  unfold issueOp
  split
  · next h => exact ⟨{ s.inp with op := op }, rfl, by simp [h]⟩
  · next x rest h => exact ⟨{ x with op := op }, rfl, by simp [h]⟩

@[simp] theorem State.reset_config : State.reset.config = Config.default := rfl
@[simp] theorem State.reset_program : State.reset.program = [] := rfl
@[simp] theorem State.reset_results : State.reset.results = [] := rfl

-- A field written to its output port leaves the rest of the outputs alone.

@[simp] theorem writeField_status (f : Field) (v : Word) (o : Outputs) : (writeField f v o).status = o.status := by
  unfold writeField; split <;> rfl
@[simp] theorem writeField_err (f : Field) (v : Word) (o : Outputs) : (writeField f v o).err = o.err := by
  unfold writeField; split <;> rfl
@[simp] theorem writeField_regOut (f : Field) (v : Word) (o : Outputs) : (writeField f v o).regOut = o.regOut := by
  unfold writeField; split <;> rfl
@[simp] theorem writeField_qResidue (f : Field) (v : Word) (o : Outputs) : (writeField f v o).qResidue = o.qResidue := by
  unfold writeField; split <;> rfl

@[simp] theorem markUnrecognized_err (f : Field) (o : Outputs) : (markUnrecognized f o).err = o.err ||| errBit f := rfl
@[simp] theorem markUnrecognized_status (f : Field) (o : Outputs) : (markUnrecognized f o).status = o.status := rfl
@[simp] theorem markUnrecognized_regOut (f : Field) (o : Outputs) : (markUnrecognized f o).regOut = o.regOut := rfl
@[simp] theorem markUnrecognized_qMod (f : Field) (o : Outputs) : (markUnrecognized f o).qMod = o.qMod := rfl
@[simp] theorem markUnrecognized_qDiv (f : Field) (o : Outputs) : (markUnrecognized f o).qDiv = o.qDiv := rfl
@[simp] theorem markUnrecognized_qPsk (f : Field) (o : Outputs) : (markUnrecognized f o).qPsk = o.qPsk := rfl
@[simp] theorem markUnrecognized_qMaxblk (f : Field) (o : Outputs) : (markUnrecognized f o).qMaxblk = o.qMaxblk := rfl
@[simp] theorem markUnrecognized_qNblocks (f : Field) (o : Outputs) : (markUnrecognized f o).qNblocks = o.qNblocks := rfl
@[simp] theorem markUnrecognized_qFlags (f : Field) (o : Outputs) : (markUnrecognized f o).qFlags = o.qFlags := rfl
@[simp] theorem markUnrecognized_qResidue (f : Field) (o : Outputs) : (markUnrecognized f o).qResidue = o.qResidue := rfl

-- A field placed on its input port leaves `op` and `reg_in` alone.

@[simp] theorem setInput_op (f : Field) (v : Word) (x : Inputs) : (setInput f v x).op = x.op := by
  unfold setInput; split <;> rfl
@[simp] theorem setInput_regIn (f : Field) (v : Word) (x : Inputs) : (setInput f v x).regIn = x.regIn := by
  unfold setInput; split <;> rfl

end Sys2Proof.Machine
end

