-- ==== Sys2Proof/Laws/Ops.lean ====
section
/-! SUPPORT. What each shared operation can do, said once: presenting outputs, an evaluation, a step, an encode and a decode
over a layout. Later proofs cite these and do not unfold the operations. -/

namespace Sys2Proof.Machine

/-- Presenting outputs with legal parameters adds them to the outputs of the run. -/
theorem present_of_legal {s : State} (o : Outputs) (h : s.config.legal = true) :
    present o s = .next { s with results := s.results ++ [o] } := by
  simp [present, h]

/-- All that presenting outputs can do. -/
theorem present_cases (o : Outputs) (s : State) :
    (s.config.legal = true ∧ present o s = .next { s with results := s.results ++ [o] })
      ∨ (s.config.legal = false ∧ present o s = .refused .illegalParameters) := by
  cases h : s.config.legal <;> simp [present, h]

/-- Every operation presents the outputs of its rule. -/
theorem exec_eq_present (i : Instr) (s : State) : exec i s = present (evaluation i s.config s.inp) s := by
  cases i <;> rfl

/-- The inversion of an evaluation: if it answers a next state, the parameters are legal and the state gained the outputs of
the operation's rule. -/
theorem exec_next {i : Instr} {s t : State} (h : exec i s = .next t) :
    s.config.legal = true ∧ t = { s with results := s.results ++ [evaluation i s.config s.inp] } := by
  rw [exec_eq_present] at h
  obtain ⟨hl, hp⟩ | ⟨-, hp⟩ := present_cases (evaluation i s.config s.inp) s
  · rw [hp] at h
    cases h
    exact ⟨hl, rfl⟩
  · rw [hp] at h
    cases h

/-- An evaluation never faults. -/
theorem exec_ne_fault (i : Instr) (s : State) (e : Fault) : exec i s ≠ .fault e := by
  rw [exec_eq_present]
  obtain ⟨-, hp⟩ | ⟨-, hp⟩ := present_cases (evaluation i s.config s.inp) s
  · simp [hp]
  · simp [hp]

/-- The output ports present the last outputs of the run. -/
theorem readOutputs_append {s : State} {l : List Outputs} {o : Outputs} (h : s.results = l ++ [o]) :
    readOutputs s = .ok o := by
  simp [readOutputs, h]

/-- The outputs read after an evaluation are those of the operation's rule. -/
theorem readOutputs_exec {i : Instr} {s t : State} {o : Outputs} (h : exec i s = .next t) (hr : readOutputs t = .ok o) :
    o = evaluation i s.config s.inp := by
  rw [(exec_next h).2, readOutputs_append rfl] at hr
  exact (Except.ok.inj hr).symm

/-- The fetch of a program that holds a next evaluation. -/
theorem fetch_cons {s : State} {x : Inputs} {rest : List Inputs} (h : s.program = x :: rest) :
    fetch s = some (decodeOp x.op, { s with inp := x, program := rest }) := by
  simp [fetch, h]

/-- The fetch of an empty program. -/
theorem fetch_nil {s : State} (h : s.program = []) : fetch s = none := by
  simp [fetch, h]

/-- All that a step can do: the run has ended, or the caller's next evaluation is performed. -/
theorem step_cases (s : State) :
    (s.program = [] ∧ step s = .fault .runEnded)
      ∨ ∃ x rest, s.program = x :: rest ∧ step s = exec (decodeOp x.op) { s with inp := x, program := rest } := by
  cases h : s.program with
  | nil => exact .inl ⟨rfl, by simp [step, fetch_nil h]⟩
  | cons x rest => exact .inr ⟨x, rest, rfl, by simp [step, fetch_cons h]⟩

-- An encode over a layout.

/-- All that an encode can give: an error mask, or the assembled register value. -/
theorem encodeRegister_cases (cfg : Config) (l : Layout) (x : Inputs) :
    (invalidMask cfg x l = 0 ∧ encodeRegister cfg l x = okRegister (assemble cfg x l))
      ∨ (invalidMask cfg x l ≠ 0 ∧ encodeRegister cfg l x = raiseInvalidField (invalidMask cfg x l)) := by
  by_cases h : invalidMask cfg x l = 0
  · exact .inl ⟨h, by rw [encodeRegister, if_pos h]⟩
  · exact .inr ⟨h, by rw [encodeRegister, if_neg h]⟩

/-- A field owns its own error bit. -/
theorem errBit_getLsbD (f : Field) (k : Nat) (hk : k < 16) : (errBit f).getLsbD k = decide (f.id = k) := by
  unfold errBit
  rw [BitVec.getLsbD_shiftLeft, BitVec.getLsbD_one]
  by_cases h : f.id = k
  · subst h; simp [hk]
  · by_cases h2 : k < f.id
    · simp [hk, h, h2]
    · simp [hk, h, h2]
      omega

/-- An error bit of an encode is set exactly where some field with that id has no code for its input. -/
theorem invalidMask_getLsbD (cfg : Config) (x : Inputs) (l : Layout) (k : Nat) (hk : k < 16) :
    (invalidMask cfg x l).getLsbD k = true ↔ ∃ f ∈ l, f.id = k ∧ codeOfInput cfg x f = none := by
  induction l with
  | nil => simp [invalidMask]
  | cons f fs ih =>
    unfold invalidMask
    split
    · next c hc => rw [ih]; simp [hc]
    · next hc => simp [ih, errBit_getLsbD f k hk, hc]

-- A decode over a layout.

/-- The fields written to their ports leave the status, the register output and the residue alone. -/
theorem decodeFields_kept (cfg : Config) (r : Word) (l : Layout) (o : Outputs) :
    (decodeFields cfg r l o).status = o.status ∧ (decodeFields cfg r l o).regOut = o.regOut
      ∧ (decodeFields cfg r l o).qResidue = o.qResidue := by
  induction l generalizing o with
  | nil => simp [decodeFields]
  | cons f fs ih =>
    unfold decodeFields
    split <;> simp [ih]

/-- An error bit of a decode is set exactly where it was before, or some field with that id reads as unrecognised. -/
theorem decodeFields_err (cfg : Config) (r : Word) (l : Layout) (o : Outputs) (k : Nat) (hk : k < 16) :
    (decodeFields cfg r l o).err.getLsbD k = true ↔
      o.err.getLsbD k = true ∨ ∃ f ∈ l, f.id = k ∧ ∃ raw, readingOf cfg f (extractField f r) = .unknown raw := by
  induction l generalizing o with
  | nil => simp [decodeFields]
  | cons f fs ih =>
    unfold decodeFields
    split
    · next v hv => rw [ih]; simp [hv]
    · next raw hv => rw [ih]; simp [errBit_getLsbD f k hk, hv, or_assoc]

/-- All that a decode can give: the fields as written where none is unrecognised, else the same with the error raised. -/
theorem decodeRegister_cases (cfg : Config) (l : Layout) (r : Word) :
    ∃ o, o = decodeFields cfg r l { Outputs.zero with qResidue := residueOf l r }
      ∧ ((o.err = 0 ∧ decodeRegister cfg l r = o)
        ∨ (o.err ≠ 0 ∧ decodeRegister cfg l r = { o with status := .unrecognizedField })) := by
  refine ⟨_, rfl, ?_⟩
  by_cases h : (decodeFields cfg r l { Outputs.zero with qResidue := residueOf l r }).err = 0
  · exact .inl ⟨h, by rw [decodeRegister, raiseMarked, if_pos h]⟩
  · exact .inr ⟨h, by rw [decodeRegister, raiseMarked, if_neg h]; rfl⟩

end Sys2Proof.Machine
end

