-- ==== Sys2Proof/Laws/Layout.lean ====
section
/-! SUPPORT. Assembly and extraction over a well-formed layout (R76 to R78): extracting a field of an assembled register
value gives the field's code, and assembling the extracted codes of a value with no residue gives the value. -/

namespace Sys2Proof.Machine

/-- The bits of a low mask. -/
theorem lowMask_getLsbD (w i : Nat) (hi : i < 32) : (lowMask w).getLsbD i = decide (i < w) := by
  unfold lowMask
  rw [BitVec.getLsbD_ofNat]
  simp [hi, Nat.testBit_two_pow_sub_one]

/-- Bit `i` of an extracted field. -/
theorem extractField_getLsbD (f : Field) (r : Word) (i : Nat) (hi : i < 32) :
    (extractField f r).getLsbD i = (decide (i < f.width) && r.getLsbD (f.shift + i)) := by
  simp [extractField, lowMask_getLsbD f.width i hi, Bool.and_comm]

/-- An extracted field, at its own width, is the bit slice of R78. -/
theorem extractField_setWidth (f : Field) (r : Word) (h : f.width ≤ 32) :
    (extractField f r).setWidth f.width = r.extractLsb' f.shift f.width := by
  refine BitVec.eq_of_getLsbD_eq fun i hi => ?_
  rw [BitVec.getLsbD_setWidth, extractField_getLsbD f r i (by omega)]
  simp [hi]

/-- An extracted field is its bit slice, zero-extended. -/
theorem extractField_eq_zext (f : Field) (r : Word) :
    extractField f r = zext (r.extractLsb' f.shift f.width) := by
  refine BitVec.eq_of_getLsbD_eq fun i hi => ?_
  rw [zext, BitVec.getLsbD_setWidth, extractField_getLsbD f r i (by omega)]
  simp [hi]

/-- Bit `j` of a field's bits in place. -/
theorem fieldBits_getLsbD (f : Field) (j : Nat) (hj : j < 32) :
    (fieldBits f).getLsbD j = (decide (f.shift ≤ j) && decide (j < f.shift + f.width)) := by
  unfold fieldBits
  rw [BitVec.getLsbD_shiftLeft]
  by_cases h : f.shift ≤ j
  · rw [lowMask_getLsbD _ _ (by omega)]
    have : (j - f.shift < f.width) ↔ (j < f.shift + f.width) := by omega
    simp [hj, h, this]
  · simp [h]

/-- A code of `w` bits has no bit at or above `w`. -/
theorem getLsbD_of_lt {c : Word} {w i : Nat} (h : c.toNat < 2 ^ w) (hi : w ≤ i) : c.getLsbD i = false := by
  rw [BitVec.getLsbD]
  exact Nat.testBit_lt_two_pow (Nat.lt_of_lt_of_le h (Nat.pow_le_pow_right (by omega) hi))

/-- The codes of a layout's fields fit their fields. -/
def codesFit (cfg : Config) (x : Inputs) (l : Layout) : Prop :=
  ∀ f ∈ l, ∀ c, codeOfInput cfg x f = some c → c.toNat < 2 ^ f.width

/-- Bit `j` of an assembled register value is a bit of the code of the field that has bit `j`, if one has. -/
theorem assemble_getLsbD (cfg : Config) (x : Inputs) (l : Layout) (hfit : codesFit cfg x l) (j : Nat) (hj : j < 32) :
    (assemble cfg x l).getLsbD j = true ↔
      ∃ f ∈ l, ∃ c, codeOfInput cfg x f = some c ∧ f.shift ≤ j ∧ j < f.shift + f.width ∧ c.getLsbD (j - f.shift) = true := by
  induction l with
  | nil => simp [assemble]
  | cons g gs ih =>
    have ih := ih fun f hf => hfit f (List.mem_cons_of_mem _ hf)
    unfold assemble
    split
    · next c hc =>
      have hw := hfit g List.mem_cons_self c hc
      have hlt : g.shift ≤ j → c.getLsbD (j - g.shift) = true → j < g.shift + g.width := fun h1 h2 => by
        by_contra h3
        rw [getLsbD_of_lt hw (by omega)] at h2
        cases h2
      simp only [BitVec.getLsbD_or, BitVec.getLsbD_shiftLeft, Bool.or_eq_true, ih, List.mem_cons, exists_eq_or_imp, hc,
        Option.some.injEq, exists_eq_left']
      refine or_congr_left ?_
      simp only [hj, decide_true, Bool.true_and, Bool.and_eq_true, Bool.not_eq_true', decide_eq_false_iff_not, not_lt]
      exact ⟨fun ⟨h1, h2⟩ => ⟨h1, hlt h1 h2, h2⟩, fun ⟨h1, _, h2⟩ => ⟨h1, h2⟩⟩
    · next hc => rw [ih]; simp [hc]

/-- In a well-formed layout, two different members have no bit in common, and every member lies within bits 31:0. -/
theorem Layout_wellFormed_iff (l : Layout) :
    Layout.wellFormed l = true ↔
      (∀ f ∈ l, 0 < f.width ∧ f.shift + f.width ≤ 32)
        ∧ l.Pairwise fun f g => f.shift + f.width ≤ g.shift ∨ g.shift + g.width ≤ f.shift := by
  induction l with
  | nil => simp [Layout.wellFormed]
  | cons f fs ih => simp [Layout.wellFormed, ih, Field.inWord, Field.disjoint]; tauto

/-- Two members of a well-formed layout that have a bit in common are one. -/
theorem eq_of_common_bit {l : Layout} (h : Layout.wellFormed l = true) {f g : Field} (hf : f ∈ l) (hg : g ∈ l) {j : Nat}
    (h1 : f.shift ≤ j ∧ j < f.shift + f.width) (h2 : g.shift ≤ j ∧ j < g.shift + g.width) : f = g := by
  have hp := ((Layout_wellFormed_iff l).1 h).2
  clear h
  induction hp with
  | nil => cases hf
  | cons hh _ ih =>
    rcases List.mem_cons.1 hf with rfl | hf' <;> rcases List.mem_cons.1 hg with rfl | hg'
    · rfl
    · have := hh g hg'; omega
    · have := hh f hf'; omega
    · exact ih hf' hg'

/-- Extracting a field of the register value assembled from codes that fit gives the field's code (R76, R77, R78). -/
theorem extractField_assemble {cfg : Config} {x : Inputs} {l : Layout} (hl : Layout.wellFormed l = true)
    (hfit : codesFit cfg x l) {f : Field} (hf : f ∈ l) {c : Word} (hc : codeOfInput cfg x f = some c) :
    extractField f (assemble cfg x l) = c := by
  have hfw := ((Layout_wellFormed_iff l).1 hl).1 f hf
  refine BitVec.eq_of_getLsbD_eq fun i hi => ?_
  rw [extractField_getLsbD f _ i hi, Bool.eq_iff_iff]
  by_cases hw : i < f.width
  · simp only [hw, decide_true, Bool.true_and, assemble_getLsbD cfg x l hfit (f.shift + i) (by omega)]
    constructor
    · rintro ⟨g, hg, c', hc', h1, h2, h3⟩
      obtain rfl := eq_of_common_bit hl hf hg ⟨by omega, by omega⟩ ⟨h1, h2⟩
      rw [hc] at hc'
      cases hc'
      simpa using h3
    · intro h
      exact ⟨f, hf, c, hc, by omega, by omega, by simpa using h⟩
  · simp [hw, getLsbD_of_lt (hfit f hf c hc) (Nat.le_of_not_lt hw)]

/-- Bit `j` of a field mask: some field has the bit. -/
theorem fieldMask_getLsbD (l : Layout) (j : Nat) (hj : j < 32) :
    (fieldMask l).getLsbD j = true ↔ ∃ f ∈ l, f.shift ≤ j ∧ j < f.shift + f.width := by
  induction l with
  | nil => simp [fieldMask]
  | cons f fs ih => simp [fieldMask, ih, fieldBits_getLsbD f j hj]

/-- An assembled register value has no bit outside the fields (R77, R204). -/
theorem residueOf_assemble {cfg : Config} {x : Inputs} {l : Layout} (hfit : codesFit cfg x l) :
    residueOf l (assemble cfg x l) = 0 := by
  refine BitVec.eq_of_getLsbD_eq fun j hj => ?_
  rw [residueOf, BitVec.getLsbD_and, BitVec.getLsbD_not]
  by_contra h
  simp only [hj, BitVec.ofNat_eq_ofNat, BitVec.getLsbD_zero, decide_true, Bool.true_and, Bool.not_eq_false, Bool.and_eq_true, Bool.not_eq_true'] at h
  obtain ⟨g, hg, c, -, h1, h2, -⟩ := (assemble_getLsbD cfg x l hfit j hj).1 h.1
  have := (fieldMask_getLsbD l j hj).2 ⟨g, hg, h1, h2⟩
  rw [h.2] at this
  cases this

/-- A register value with no residue is the one assembled from its own extracted codes (R77, R78). -/
theorem assemble_extractField {cfg : Config} {x : Inputs} {l : Layout} (hl : Layout.wellFormed l = true) {r : Word}
    (hr : residueOf l r = 0) (hc : ∀ f ∈ l, codeOfInput cfg x f = some (extractField f r)) : assemble cfg x l = r := by
  have hlt : ∀ f ∈ l, (extractField f r).toNat < 2 ^ f.width := fun f hf => by
    have hfw := ((Layout_wellFormed_iff l).1 hl).1 f hf
    refine Nat.lt_of_le_of_lt (BitVec.toNat_and .. ▸ Nat.and_le_right) ?_
    rw [lowMask, BitVec.toNat_ofNat]
    exact Nat.lt_of_le_of_lt (Nat.mod_le _ _) (by have := Nat.two_pow_pos f.width; omega)
  have hfit : codesFit cfg x l := fun f hf c h => by
    rw [hc f hf] at h
    cases h
    exact hlt f hf
  refine BitVec.eq_of_getLsbD_eq fun j hj => ?_
  rw [Bool.eq_iff_iff, assemble_getLsbD cfg x l hfit j hj]
  constructor
  · rintro ⟨f, hf, c, h, h1, h2, h3⟩
    rw [hc f hf] at h
    cases h
    rw [extractField_getLsbD f r _ (by omega)] at h3
    simpa [Nat.add_sub_cancel' h1, (by omega : j - f.shift < f.width)] using h3
  · intro h
    have hm : (fieldMask l).getLsbD j = true := by
      by_contra hm
      have : (residueOf l r).getLsbD j = true := by
        simp only [residueOf, BitVec.getLsbD_and, BitVec.getLsbD_not, h, hj, Bool.eq_false_of_not_eq_true hm]
        rfl
      rw [hr] at this
      simp at this
    obtain ⟨f, hf, h1, h2⟩ := (fieldMask_getLsbD l j hj).1 hm
    refine ⟨f, hf, _, hc f hf, h1, h2, ?_⟩
    rw [extractField_getLsbD f r _ (by omega)]
    simpa [Nat.add_sub_cancel' h1, (by omega : j - f.shift < f.width)] using h

end Sys2Proof.Machine
end

