-- ==== Sys2Proof/Laws/Operands.lean ====
section
/-! SUPPORT. What each operand form can do: a code of an input fits its field, and the reading of a field's code and the code
of its input invert each other (the per-field half of R113, R153 and R183). -/

namespace Sys2Proof.Machine

/-- The width of the codes of a codec. -/
def codecWidth : Codec → Nat
  | .flag => 1
  | .maxblk => 3
  | .psk => 2
  | .modT55x7 => 5
  | .modT5555 => 3
  | .modEm4x05 => 4
  | .clock => 3
  | .rate6 => 6
  | .nblocks => 4

/-- In every layout each field is as wide as its codes. -/
theorem width_eq_codecWidth (cfg : Config) (fam : Family) : ∀ f ∈ layoutOf cfg fam, f.width = codecWidth f.codec := by
  cases fam <;> simp [layoutOf, t55x7Layout, t5555Layout, em4x05Layout, codecWidth]

/-- A zero-extended code fits its width. -/
theorem zext_lt {w : Nat} (c : BitVec w) : (zext c).toNat < 2 ^ w := by
  rw [zext, BitVec.toNat_setWidth]
  exact Nat.lt_of_le_of_lt (Nat.mod_le _ _) c.isLt

/-- The code of an input fits the width of its codec. -/
theorem codeOfInput_lt {cfg : Config} {x : Inputs} {f : Field} {c : Word} (h : codeOfInput cfg x f = some c) :
    c.toNat < 2 ^ codecWidth f.codec := by
  cases hc : f.codec <;> simp only [codeOfInput, hc] at h
  · cases h
    exact zext_lt _
  all_goals
    obtain ⟨b, -, rfl⟩ := Option.map_eq_some_iff.1 h
    exact zext_lt b

/-- The codes of every layout's fields fit their fields. -/
theorem codesFit_layoutOf (cfg : Config) (fam : Family) (x : Inputs) : codesFit cfg x (layoutOf cfg fam) :=
  fun f hf _ h => width_eq_codecWidth cfg fam f hf ▸ codeOfInput_lt h

/-- Zero-extending a code and taking its low bits again gives the code. -/
theorem setWidth_zext {w : Nat} (c : BitVec w) (h : w ≤ 32) : (zext c).setWidth w = c := by
  rw [zext, BitVec.setWidth_setWidth_of_le _ h, BitVec.setWidth_eq]

/-- A table whose values and codes are all different: the value of a code's row is the value the code was given for. -/
theorem valueOf_of_codeOf {α β : Type} [DecidableEq α] [DecidableEq β] {t : List (α × β)} (ht : (t.map Prod.snd).Nodup) {a : α}
    {b : β} (h : codeOf t a = some b) : valueOf t b = some a := by
  induction t with
  | nil => cases h
  | cons row rows ih =>
    simp only [List.map_cons, List.nodup_cons] at ht
    unfold codeOf at h
    unfold valueOf
    split at h
    · next ha =>
      cases h
      simp [ha]
    · have := ih ht.2 h
      have hne : row.2 ≠ b := fun hb => ht.1 (by
        clear ih ht this
        subst hb
        induction rows with
        | nil => cases h
        | cons r rs ihr =>
          unfold codeOf at h
          split at h
          · simp_all
          · exact List.mem_cons_of_mem _ (ihr h))
      simp [hne, this]

/-- The reading of the code of an input is the input's value, for every field (with legal parameters or not). -/
theorem readingOf_codeOfInput {cfg : Config} {x : Inputs} {f : Field} {c : Word} (h : codeOfInput cfg x f = some c) :
    readingOf cfg f c = .known (inputValue x f) := by
  cases hc : f.codec <;> simp only [codeOfInput, readingOf, inputValue, hc] at h ⊢
  · cases h; rfl
  all_goals obtain ⟨b, hb, rfl⟩ := Option.map_eq_some_iff.1 h
  · unfold blk3Enc at hb
    split at hb
    · next hle =>
      cases hb
      congr 1
      apply BitVec.eq_of_toNat_eq
      simp [zext]
      omega
    · cases hb
  · rw [setWidth_zext b (by decide), pskDec, tableReading, valueOf_of_codeOf (by decide) hb]
  · rw [setWidth_zext b (by decide)]
    have : ∀ s b, mod55Enc s = some b → mod55Dec b = .known (zext s) := by decide
    exact this _ _ hb
  · rw [setWidth_zext b (by decide)]
    have : ∀ s b, mod5555Enc s = some b → mod5555Dec b = .known (zext s) := by decide
    exact this _ _ hb
  · rw [setWidth_zext b (by decide)]
    have : ∀ s b, mod4305Enc s = some b → mod4305Dec b = .known (zext s) := by decide
    exact this _ _ hb
  · rw [setWidth_zext b (by decide), clkDec, tableReading, valueOf_of_codeOf (by decide) hb]
  · rw [setWidth_zext b (by decide)]
    unfold rate6Enc at hb
    split at hb
    · next hh =>
      cases hb
      rw [rate6Dec]
      congr 1
      apply BitVec.eq_of_toNat_eq
      simp
      omega
    · cases hb
  · rw [setWidth_zext b (by decide)]
    unfold nbEnc at hb
    split at hb
    · next hh =>
      cases hb
      have hlt : (x.pNblocks.toNat + 4) % 16 = x.pNblocks.toNat + 4 := by omega
      rw [nbDec, if_pos (by simp; omega)]
      congr 1
      apply BitVec.eq_of_toNat_eq
      simp
      omega
    · cases hb

end Sys2Proof.Machine
end

