-- ==== Sys2Proof/Laws/PerInstr.lean ====
section
/-! SUPPORT. The statement made of each instruction as syntax: it is well-formed, and the word of
spec/opcode_table.json that its encoding is decodes to it (R61). -/

namespace Sys2Proof.Laws.TableWord

/-- The instruction is well-formed, and its table word decodes to it. -/
def Statement (i : Instr) : Prop := i.wellFormed = true ∧ decodeTableWord 8 (encodeOp i).toNat = some i

theorem t55x7Enc : Statement .t55x7Enc := ⟨rfl, rfl⟩
theorem t55x7Dec : Statement .t55x7Dec := ⟨rfl, rfl⟩
theorem t5555Enc : Statement .t5555Enc := ⟨rfl, rfl⟩
theorem t5555Dec : Statement .t5555Dec := ⟨rfl, rfl⟩
theorem em4x05Enc : Statement .em4x05Enc := ⟨rfl, rfl⟩
theorem em4x05Dec : Statement .em4x05Dec := ⟨rfl, rfl⟩
theorem t55x7Clkbit : Statement .t55x7Clkbit := ⟨rfl, rfl⟩
theorem reservedOp : Statement .reservedOp := ⟨rfl, rfl⟩

end Sys2Proof.Laws.TableWord
end

