-- ==== Sys2Proof/Tests/Slice0.lean ====
section
/-! SUPPORT. Tests on fixed values, every expected value from spec/95_test_vectors.md or worked by hand from the rule named;
smoke tests of the checks; and for each statement of Obligations.lean that has hypotheses a witness that meets them. -/

namespace Sys2Proof.Tests

open Sys2Proof Sys2Proof.Machine

/-- The machine before its first evaluation, with these values on the input ports. -/
def ports (x : Inputs) : State := { State.reset with inp := x }

/-- The outputs an operation gives on these inputs, with the default parameters. -/
def outputsOf (i : Instr) (x : Inputs) : Option Outputs :=
  match exec i (ports x) with
  | .next t => t.results.getLast?
  | .fault _ => none
  | .refused _ => none

/-- The outputs of a failed encode. -/
def failed (mask : BitVec 16) : Outputs := { Outputs.zero with status := .invalidField, err := mask }

/-- A register value on `reg_in`. -/
def reg (r : Word) : Inputs := { Inputs.zero with regIn := r }

-- Decoding (R61): the value of `op`, written out from the table, decodes to the operation.

theorem test_decode_t55x7Enc : decodeOp 0b000 = .t55x7Enc := by decide
theorem test_decode_t55x7Dec : decodeOp 0b001 = .t55x7Dec := by decide
theorem test_decode_t5555Enc : decodeOp 0b010 = .t5555Enc := by decide
theorem test_decode_t5555Dec : decodeOp 0b011 = .t5555Dec := by decide
theorem test_decode_em4x05Enc : decodeOp 0b100 = .em4x05Enc := by decide
theorem test_decode_em4x05Dec : decodeOp 0b101 = .em4x05Dec := by decide
theorem test_decode_t55x7Clkbit : decodeOp 0b110 = .t55x7Clkbit := by decide
theorem test_decode_reservedOp : decodeOp 0b111 = .reservedOp := by decide

/-- A table word placed as the next instruction runs on the very next step from reset. Status by hand: `reg_in` is 0, and
EM4x05 block-count code 0 is unrecognised (E21). -/
theorem test_withFetchWord_runs :
    (match step (State.reset.withFetchWord 8 0b101) with
      | .next t => t.results.map fun o => (o.status, o.err)
      | .fault _ => []
      | .refused _ => []) = [(.unrecognizedField, 0x0008)] := by decide

-- The checks refuse an ill-formed term (R8, R76).

theorem smoke_config_default : Config.default.legal = true := by decide
theorem smoke_config_nbMin : Config.legal { nbMin := 2, fwBit := 18, psBit := 19 } = false := by decide
/-- The repository's recalled positions, illegal by R8. -/
theorem smoke_config_recalled_positions : Config.legal { nbMin := 0, fwBit := 14, psBit := 15 } = false := by decide
theorem smoke_config_fw_high : Config.legal { nbMin := 0, fwBit := 32, psBit := 19 } = false := by decide
theorem smoke_config_ps_low : Config.legal { nbMin := 0, fwBit := 18, psBit := 17 } = false := by decide
theorem smoke_config_ps_high : Config.legal { nbMin := 0, fwBit := 18, psBit := 32 } = false := by decide
theorem smoke_config_equal : Config.legal { nbMin := 0, fwBit := 20, psBit := 20 } = false := by decide
theorem smoke_config_bounds :
    Config.legal { nbMin := 1, fwBit := 31, psBit := 18 } = true ∧ Config.legal { nbMin := 0, fwBit := 18, psBit := 31 } = true := by
  decide
theorem smoke_layout_overlap :
    Layout.wellFormed [{ id := 0, name := .aor, width := 1, shift := 9, codec := .flag },
      { id := 1, name := .maxblk, width := 5, shift := 5, codec := .maxblk }] = false := by decide
theorem smoke_layout_outside :
    Layout.wellFormed [{ id := 0, name := .por, width := 2, shift := 31, codec := .flag }] = false := by decide
theorem smoke_layout_empty_field :
    Layout.wellFormed [{ id := 0, name := .por, width := 0, shift := 0, codec := .flag }] = false := by decide
theorem smoke_instr : ∀ op : BitVec 3, (decodeOp op).wellFormed = true := by decide

-- Test vectors, at most two an operation.

/-- T4. -/
theorem test_T4 :
    outputsOf .t55x7Enc { Inputs.zero with pMod := 10, pDiv := 128, pPsk := 8, pMaxblk := 7, pFlags := 0x0097 }
      = some (okRegister 0x001F8AF9) := by decide
/-- T9. -/
theorem test_T9 :
    outputsOf .t55x7Enc { Inputs.zero with pMod := 11, pDiv := 7, pPsk := 16, pMaxblk := 8 } = some (failed 0x0168) := by decide
/-- T24. -/
theorem test_T24 :
    outputsOf .t55x7Dec (reg 0xFFFFFFFF) = some {
      status := .unrecognizedField, err := 0x0060, regOut := 0, qMod := 31, qDiv := 128, qPsk := 3, qMaxblk := 7,
      qNblocks := 0, qFlags := 0x0097, qResidue := 0xFFE00106 } := by decide
/-- T21 with the residue of T27: FSK2A, 50, psk 2, maxblk 3. -/
theorem test_T21 :
    outputsOf .t55x7Dec (reg 0x60107060) = some {
      Outputs.zero with qMod := 7, qDiv := 50, qPsk := 2, qMaxblk := 3, qResidue := 0x60000000 } := by decide
/-- K3. -/
theorem test_K3 : outputsOf .t55x7Clkbit { Inputs.zero with pDiv := 100 } = some (okRegister 6) := by decide
/-- V2, on a divisor whose low byte is a legal one (264, R100). -/
theorem test_clkbit_264 : outputsOf .t55x7Clkbit { Inputs.zero with pDiv := 264 } = some (failed 0x0100) := by decide
/-- S2. -/
theorem test_S2 :
    outputsOf .t5555Enc { Inputs.zero with pMod := 0, pDiv := 128, pPsk := 8, pMaxblk := 7, pFlags := 0x0369 }
      = some (okRegister 0x000FFEFF) := by decide
/-- S5 and S10 together: divisor 130, maxblk 8, psk 3. -/
theorem test_S5_S10 :
    outputsOf .t5555Enc { Inputs.zero with pMod := 8, pDiv := 130, pPsk := 3, pMaxblk := 8 } = some (failed 0x0092) := by decide
/-- S21. -/
theorem test_S21 :
    outputsOf .t5555Dec (reg 0xFFFFFFFF) = some {
      status := .unrecognizedField, err := 0x0010, regOut := 0, qMod := 0, qDiv := 128, qPsk := 3, qMaxblk := 7,
      qNblocks := 0, qFlags := 0x0369, qResidue := 0xFFF00000 } := by decide
/-- S20. -/
theorem test_S20 :
    outputsOf .t5555Dec (reg 0x6001F004) = some {
      Outputs.zero with qMod := 8, qDiv := 64, qPsk := 2, qMaxblk := 2, qResidue := 0x60000000 } := by decide
/-- E2. -/
theorem test_E2 :
    outputsOf .em4x05Enc { Inputs.zero with pMod := 5, pDiv := 128, pPsk := 8, pNblocks := 11, pFlags := 0x07F0 }
      = some (okRegister 0x01FFCA3F) := by decide
/-- E5, the block count whose 32-bit biased code would wrap to 0. -/
theorem test_E5 :
    outputsOf .em4x05Enc { Inputs.zero with pDiv := 2, pPsk := 2, pNblocks := 0xFFFFFFFC } = some (failed 0x0008) := by decide
/-- E22. -/
theorem test_E22 :
    outputsOf .em4x05Dec (reg 0xFFFFFFFF) = some {
      status := .unrecognizedField, err := 0x0006, regOut := 0, qMod := 15, qDiv := 128, qPsk := 3, qMaxblk := 0,
      qNblocks := 11, qFlags := 0x07F0, qResidue := 0xFE003000 } := by decide
/-- E26. -/
theorem test_E26 :
    outputsOf .em4x05Dec (reg 0x000003C0) = some {
      Outputs.zero with status := .unrecognizedField, err := 0x000A, qMod := 15, qDiv := 2, qPsk := 2 } := by decide
/-- X2. -/
theorem test_X2 :
    outputsOf .reservedOp { Inputs.zero with op := 7, regIn := 0x00148200, pDiv := 64 }
      = some { Outputs.zero with status := .illegalOp } := by decide

-- The assembler and the caller (spec/95 section 3).

/-- P1, step 2. -/
theorem test_P1_line :
    assembleText Config.default "T55X7.ENC mod=MANCHESTER div=64 maxblk=2 ; EM410x".toList
      = .ok (.evaluate { Inputs.zero with op := 0b000, pMod := 8, pDiv := 64, pPsk := 2, pMaxblk := 2 }) := by rfl
/-- P2, the line. -/
theorem test_P2_line :
    assembleText Config.default "T5555.RMW reg=0x6001F004 div=32".toList
      = .ok (.rmw .t5555 0x6001F004 [(.field .div, .number 32)]) := by rfl
/-- P2, the caller's result. -/
theorem test_P2_result :
    (match rmw .t5555 0x6001F004 [(.field .div, .number 32)] State.reset with
      | .next (_, v) => some v
      | .fault _ => none
      | .refused _ => none) = some (.value 0x6000F004) := by decide
/-- P4: an unrecognised decode stops a read-modify-write. -/
theorem test_P4_stops :
    (match rmw .t55x7 0x00009000 [(.field .div, .number 32)] State.reset with
      | .next (_, v) => some v
      | .fault _ => none
      | .refused _ => none) = some (.stopped .unrecognizedField 0x0040) := by decide
/-- An operand the operation does not take (R83: a decode takes only `reg`). -/
theorem test_asm_decode_takes_only_reg :
    assembleText Config.default "EM4X05.DEC div=2".toList = .error .operandNotTaken := by rfl

end Sys2Proof.Tests

namespace Sys2Proof.Witness

open Sys2Proof Sys2Proof.Machine Sys2Proof.Tests

/-- A legal T55x7 record (T4). -/
def t4 : Inputs := { Inputs.zero with pMod := 10, pDiv := 128, pPsk := 8, pMaxblk := 7, pFlags := 0x0097 }
/-- A legal T5555 record (S2). -/
def s2 : Inputs := { Inputs.zero with op := 2, pMod := 0, pDiv := 128, pPsk := 8, pMaxblk := 7, pFlags := 0x0369 }
/-- A legal EM4x05 record (E2). -/
def e2 : Inputs := { Inputs.zero with op := 4, pMod := 5, pDiv := 128, pPsk := 8, pNblocks := 11, pFlags := 0x07F0 }
/-- A program of two evaluations. -/
def twoSteps : State := { State.reset with program := [s2, e2] }

theorem StepPerformsTheIssuedOperation : twoSteps.program = s2 :: [e2] := rfl
theorem StepPerformsTheIssuedOperation_word : decodeTableWord 8 6 = some .t55x7Clkbit := rfl
theorem IllegalParametersAreRefused :
    Config.default.legal = true ∧ Config.legal { nbMin := 0, fwBit := 14, psBit := 15 } = false := by decide
theorem OperationsOfIllegalParametersAreRefused :
    ({ State.reset with config := { nbMin := 2, fwBit := 18, psBit := 19 } } : State).config.legal = false := by decide
theorem StepComputesTheEvaluation : twoSteps.config.legal = true ∧ twoSteps.program = s2 :: [e2] := ⟨rfl, rfl⟩
/-- Two states that agree on the parameters and the next evaluation only. -/
theorem OutputsDependOnlyOnTheIssuedInputs :
    ∃ s' t', twoSteps.program = s2 :: [e2]
      ∧ ({ twoSteps with program := [s2], inp := e2, results := [okRegister 1] } : State).program = s2 :: []
      ∧ step twoSteps = .next s'
      ∧ step { twoSteps with program := [s2], inp := e2, results := [okRegister 1] } = .next t' :=
  ⟨_, _, rfl, rfl, rfl, rfl⟩
theorem RunPerformsEveryEvaluation : twoSteps.config.legal = true ∧ twoSteps.program.length = 2 := ⟨rfl, rfl⟩
theorem EveryInterleavingGivesTheSameOutputs :
    State.reset.config.legal = true ∧ [s2, e2].Perm [e2, s2] := ⟨rfl, .swap _ _ _⟩
/-- Each operation answers a next state with outputs to read: the hypotheses of EvaluationFrame,
OutputsExistOnlyAfterAnEvaluation, InvalidFieldCausesAndRecord, UnrecognizedFieldCausesAndRecord,
EachOperationReportsItsOwnStatuses, UnwrittenOutputsAreZero, UnreadInputsHaveNoEffect and
FailedEvaluationsGiveRegisterZero. -/
theorem EvaluationFrame (i : Instr) : ∃ t o, exec i State.reset = .next t ∧ readOutputs t = .ok o := by
  cases i <;> exact ⟨_, _, rfl, rfl⟩
/-- The hypothesis of the eight results. -/
theorem OperationResults : (ports t4).config.legal = true := rfl
/-- Both errors occur, with the clauses they open, at the boundary of a range: maxblk 8, and a MOD code just above 8. -/
theorem InvalidFieldCausesAndRecord :
    (outputsOf .t55x7Enc { t4 with pMaxblk := 8 }).map Outputs.status = some .invalidField
      ∧ (outputsOf .t55x7Enc t4).map Outputs.status = some .ok := by decide
theorem UnrecognizedFieldCausesAndRecord :
    (outputsOf .t55x7Dec (reg 0x00009000)).map Outputs.status = some .unrecognizedField
      ∧ roleOf .t55x7Dec = .decode .t55x7 ∧ (outputsOf .t55x7Dec (reg 0x00008000)).map Outputs.status = some .ok := by decide
/-- A kind of operation for each clause. -/
theorem UnwrittenOutputsAreZero :
    roleOf .em4x05Enc = .encode .em4x05 ∧ roleOf .t55x7Clkbit = .clkbit ∧ roleOf .t5555Dec = .decode .t5555
      ∧ roleOf .reservedOp = .reserved := by decide
/-- Two register values with the same fields and different unassigned bits (S20). -/
theorem UnassignedBitsReachOnlyTheResidue :
    ∃ t t' o o', roleOf .t5555Dec = .decode .t5555
      ∧ (0x0001F004#32 : Word) &&& fieldMask (layoutOf Config.default .t5555)
        = (reg 0x6001F004).regIn &&& fieldMask (layoutOf Config.default .t5555)
      ∧ exec .t5555Dec (ports (reg 0x6001F004)) = .next t ∧ readOutputs t = .ok o
      ∧ exec .t5555Dec { ports (reg 0x6001F004) with inp := { (reg 0x6001F004) with regIn := 0x0001F004 } } = .next t'
      ∧ readOutputs t' = .ok o' :=
  ⟨_, _, _, _, rfl, by decide, rfl, rfl, rfl, rfl⟩
/-- A state with outputs in it that meets the invariant and steps. -/
theorem StepKeepsTheInvariant :
    ∃ t, machineInvariant { twoSteps with results := [okRegister 5] }
      ∧ step { twoSteps with results := [okRegister 5] } = .next t := by
  refine ⟨_, ⟨rfl, fun o ho => ?_⟩, rfl⟩
  rw [List.mem_singleton.1 ho]
  unfold outputsCoherent
  decide
theorem InstantiationMeetsTheInvariant : ∃ s, instantiate { nbMin := 1, fwBit := 31, psBit := 18 } = .next s := ⟨_, rfl⟩
theorem ClockDivisorTable : clkEnc 128 = some 7 ∧ clkEnc 264 = none := by decide
theorem PskAndMaxBlockCodes :
    (7#32 : Word).toNat ≤ 7 ∧ 7 < (8#32 : Word).toNat ∧ (t55x7Layout[3]?.map Field.codec) = some .maxblk := by decide
/-- The least and the greatest legal divisor, and an illegal one on each ground. -/
theorem BitRateCodes :
    rate6Enc 2 = some 0 ∧ rate6Enc 128 = some 63 ∧ rate6Enc 65 = none ∧ rate6Enc 0 = none ∧ rate6Enc 130 = none := by decide
/-- The least and the greatest legal count, and the codes on each side of the least. -/
theorem BlockCountCodes :
    Config.default.legal = true ∧ nbEnc Config.default 0 = some 4 ∧ nbEnc Config.default 11 = some 15
      ∧ nbEnc Config.default 12 = none ∧ nbEnc { Config.default with nbMin := 1 } 0 = none
      ∧ nbDec Config.default 4 = .known 0 ∧ nbDec Config.default 3 = .unknown 3 := by decide
/-- Legal parameters at the ends of their range, and positions that break the T5555 layout. -/
theorem LayoutsAreDisjoint :
    Config.legal { nbMin := 1, fwBit := 31, psBit := 18 } = true
      ∧ Layout.wellFormed (t5555Layout { nbMin := 0, fwBit := 14, psBit := 15 }) = false := by decide
theorem FieldMasks : Config.legal { nbMin := 0, fwBit := 31, psBit := 30 } = true := by decide
theorem T55x7DecodeInvertsEncode : (ports t4).config.legal = true ∧ legalT55x7 (ports t4).inp := by
  unfold legalT55x7; decide
/-- One register value for each of the two clauses (T28, T25). -/
theorem T55x7EncodeInvertsDecode :
    (0x001F8AF9#32 : Word) &&& 0xFFE00106 = 0 ∧ (outputsOf .t55x7Dec (reg 0x001F8AF9)).map Outputs.status = some .ok
      ∧ (0x00009000#32 : Word) &&& 0xFFE00106 = 0
      ∧ (outputsOf .t55x7Dec (reg 0x00009000)).map Outputs.status = some .unrecognizedField := by decide
theorem T5555RoundTrips :
    (ports s2).config.legal = true ∧ legalT5555 (ports s2).inp
      ∧ (0x000FFEFF#32 : Word) &&& ~~~ fieldMask (t5555Layout Config.default) = 0
      ∧ (0x000FFEFF#32 : Word).extractLsb' 8 2 ≠ 3 := by
  unfold legalT5555; decide
theorem Em4x05RoundTrips :
    (ports e2).config.legal = true ∧ legalEm4x05 (ports e2).config (ports e2).inp
      ∧ (0x01FFCA3F#32 : Word) &&& 0xFE003000 = 0
      ∧ (outputsOf .em4x05Dec (reg 0x01FFCA3F)).map Outputs.status = some .ok := by
  unfold legalEm4x05; decide
theorem EncodedRecordsDecodeInEveryFamily :
    ∃ t, exec (encodeInstr .t55x7) (ports t4) = .next t ∧ readOutputs t = .ok (okRegister 0x001F8AF9) := ⟨_, rfl, rfl⟩
/-- The least and the greatest flag, in an encode that succeeds and in one that fails. -/
theorem Em4x05FlagIndependence :
    (outputsOf .em4x05Enc { e2 with pFlags := e2.pFlags ^^^ (1#16 <<< 4) }).map Outputs.status = some .ok
      ∧ (outputsOf .em4x05Enc { e2 with pFlags := e2.pFlags ^^^ (1#16 <<< 10) }).map Outputs.status = some .ok
      ∧ (outputsOf .em4x05Enc { e2 with pNblocks := 12 }).map Outputs.status = some .invalidField := by decide
theorem T5555BitRateAsymmetry :
    Spec.badRate { s2 with pDiv := 65 } ∧ ¬ Spec.badRate s2 ∧ (outputsOf .t5555Dec (reg 0)).isSome = true := by
  unfold Spec.badRate; decide
theorem DefaultRecordsEncode : State.reset.config.legal = true := rfl
theorem DecodeRecordHoldsEveryReading :
    ∃ t o, exec (decodeInstr .em4x05) State.reset = .next t ∧ readOutputs t = .ok o := ⟨_, _, rfl, rfl⟩
theorem ReservedOpHasNoRecord : ∃ t o, exec .reservedOp State.reset = .next t ∧ readOutputs t = .ok o := ⟨_, _, rfl, rfl⟩
theorem FailedEvaluationsGiveRegisterZero :
    (outputsOf .t5555Enc { s2 with pDiv := 65 }).map Outputs.status = some .invalidField := by decide
/-- A read-modify-write with an edit that gives a value (P2). -/
theorem RmwKeepsUnassignedBits :
    ∃ t, rmw .t5555 0x6001F004 [(.field .div, .number 32)] State.reset = .next (t, .value 0x6000F004) := ⟨_, rfl⟩
/-- A register value for each clause (T20, T25). -/
theorem RmwOfNothingOrStopped :
    State.reset.config.legal = true ∧ (∀ k, ¬ Spec.unrecognizedCause Config.default .t55x7Dec 0x00148040 k)
      ∧ Spec.unrecognizedCause Config.default .t55x7Dec 0x00009000 6 := by
  refine ⟨rfl, fun k hk => ?_, .inr ⟨rfl, by decide⟩⟩
  obtain ⟨-, h⟩ | ⟨-, h⟩ := hk
  · exact absurd h (by decide)
  · exact absurd h (by decide)
/-- A field of each family's operand kinds: a flag and a number. -/
theorem AssemblerOperandSetsItsFieldOnly :
    (∃ y, placeField Config.default .em4x05 .rtf (.number 1) Inputs.zero = .ok y)
      ∧ ∃ y, placeField Config.default .t55x7 .div (.number 64) Inputs.zero = .ok y :=
  ⟨⟨_, rfl⟩, ⟨_, rfl⟩⟩

end Sys2Proof.Witness
end

section
/-! PROOFS. The parameters of R8: the legal-value check as inequalities, what instantiating a block can do, and the
obligations about legal and illegal parameters. -/

namespace Sys2Proof.Machine

/-- The legal-value check holds exactly of parameters in the ranges of R8. -/
theorem config_legal_iff (c : Config) :
    c.legal = true ↔
      c.nbMin ≤ 1 ∧ (18 ≤ c.fwBit ∧ c.fwBit ≤ 31) ∧ (18 ≤ c.psBit ∧ c.psBit ≤ 31) ∧ c.fwBit ≠ c.psBit := by
  simp only [Config.legal, Bool.and_eq_true, decide_eq_true_eq, and_assoc]

/-- Legal parameters instantiate the reset state with these parameters. -/
theorem instantiate_of_legal {c : Config} (h : c.legal = true) :
    instantiate c = .next { State.reset with config := c } := if_pos h

/-- Illegal parameters do not instantiate. -/
theorem instantiate_of_illegal {c : Config} (h : c.legal = false) : instantiate c = .refused .illegalParameters := by
  simp [instantiate, h]

/-- The inversion of instantiating: if it answers a state, the parameters are legal and the state is the reset state with
these parameters. -/
theorem instantiate_next {c : Config} {s : State} (h : instantiate c = .next s) :
    c.legal = true ∧ s = { State.reset with config := c } := by
  cases hl : c.legal with
  | true =>
    rw [instantiate_of_legal hl] at h
    cases h
    exact ⟨rfl, rfl⟩
  | false =>
    rw [instantiate_of_illegal hl] at h
    cases h

/-- Presenting outputs with illegal parameters is refused. -/
theorem present_of_illegal {s : State} (o : Outputs) (h : s.config.legal = false) :
    present o s = .refused .illegalParameters := by
  simp [present, h]

/-- The reset state with legal parameters meets the invariant: it holds no outputs that could be incoherent. -/
theorem machineInvariant_reset_with_config {c : Config} (h : c.legal = true) :
    machineInvariant { State.reset with config := c } :=
  ⟨h, by simp⟩

/-- Settles O5: the check of R8 in its own terms, and both sides of instantiating. -/
theorem illegalParametersAreRefused : Obligations.IllegalParametersAreRefused := by
  refine ⟨fun c => ?_, rfl, fun _ => instantiate_of_legal, fun _ => instantiate_of_illegal⟩
  rw [config_legal_iff, Nat.le_one_iff_eq_zero_or_eq_one]

/-- Settles O6: every operation ends by presenting its outputs, and there the parameters are checked. -/
theorem operationsOfIllegalParametersAreRefused : Obligations.OperationsOfIllegalParametersAreRefused := by
  intro i s h
  rw [exec_eq_present, present_of_illegal _ h]

/-- Settles O30: the default parameters are legal, and a block that instantiates is the reset state with legal
parameters. -/
theorem instantiationMeetsTheInvariant : Obligations.InstantiationMeetsTheInvariant := by
  refine ⟨machineInvariant_reset_with_config (c := Config.default) (by decide), fun c s h => ?_⟩
  obtain ⟨hl, rfl⟩ := instantiate_next h
  exact machineInvariant_reset_with_config hl

end Sys2Proof.Machine
end

section
/-! PROOFS. The ports of the fields (R64): which port a field stands on, and what a write to one port leaves on it
and on the others. -/

namespace Sys2Proof.Machine

/-- The port a field is read from and written to (R64): its own bit of the flags bus, or a numeric port. -/
inductive FieldPort where
  | flag (id : Nat)
  | maxblk
  | psk
  | mod
  | div
  | nblocks

/-- The port of a field, from the "field code" column of R65 to R67. -/
def portOf (f : Field) : FieldPort :=
  match f.codec with
  | .flag => .flag f.id
  | .maxblk => .maxblk
  | .psk => .psk
  | .modT55x7 | .modT5555 | .modEm4x05 => .mod
  | .clock | .rate6 => .div
  | .nblocks => .nblocks

/-- What an output port carries, as a word (R24). -/
def portValue (o : Outputs) : FieldPort → Word
  | .flag k => flagIn o.qFlags k
  | .maxblk => o.qMaxblk
  | .psk => o.qPsk
  | .mod => zext o.qMod
  | .div => o.qDiv
  | .nblocks => o.qNblocks

/-- The width of a field's output port (R24). -/
def FieldPort.width : FieldPort → Nat
  | .flag _ => 1
  | .mod => 5
  | .maxblk | .psk | .div | .nblocks => 32

/-- The outputs with a value on a port; a flag joins its bus, where its bit is 0 before (R64). -/
def writePort (p : FieldPort) (v : Word) (o : Outputs) : Outputs :=
  match p with
  | .flag k => { o with qFlags := o.qFlags ||| (v.setWidth 16 <<< k) }
  | .maxblk => { o with qMaxblk := v }
  | .psk => { o with qPsk := v }
  | .mod => { o with qMod := v.setWidth 5 }
  | .div => { o with qDiv := v }
  | .nblocks => { o with qNblocks := v }

/-- A field on a bit of the flags bus is on the bit of its own id (R64). -/
theorem eq_id_of_portOf_eq_flag {f : Field} {k : Nat} (h : portOf f = .flag k) : f.id = k := by
  cases hc : f.codec <;> simp only [portOf, hc, reduceCtorEq, FieldPort.flag.injEq] at h
  exact h

theorem outputValue_eq_portValue (o : Outputs) (f : Field) : outputValue o f = portValue o (portOf f) := by
  unfold outputValue portOf
  cases f.codec <;> rfl

theorem writeField_eq_writePort (f : Field) (v : Word) (o : Outputs) : writeField f v o = writePort (portOf f) v o := by
  unfold writeField portOf
  cases f.codec <;> rfl

@[simp] theorem portValue_markUnrecognized (f : Field) (o : Outputs) (p : FieldPort) :
    portValue (markUnrecognized f o) p = portValue o p := by
  cases p <;> rfl

/-- A status set on the outputs leaves every field's port alone. -/
@[simp] theorem portValue_withStatus (o : Outputs) (st : Status) (p : FieldPort) :
    portValue { o with status := st } p = portValue o p := by
  cases p <;> rfl

-- A bit of a flags bus.

/-- A bit of a flags bus as a word is 1 where the bit is set, else 0 (R64). -/
theorem flagIn_eq_ite (b : BitVec 16) (k : Nat) : flagIn b k = if b.getLsbD k then 1 else 0 := by
  refine BitVec.eq_of_getLsbD_eq fun i hi => ?_
  rw [flagIn, zext, BitVec.getLsbD_setWidth, BitVec.getLsbD_extractLsb']
  obtain rfl | hpos := Nat.eq_zero_or_pos i
  · cases h : b.getLsbD k <;> simp
  · cases h : b.getLsbD k <;> simp [hpos.ne', BitVec.getLsbD_one]

theorem flagIn_eq_zero_iff (b : BitVec 16) (k : Nat) : flagIn b k = 0 ↔ b.getLsbD k = false := by
  rw [flagIn_eq_ite]
  cases b.getLsbD k <;> decide

/-- A one-bit value shifted onto a flags bus joins the bit it is shifted to, and no other. -/
theorem getLsbD_or_flag (b : BitVec 16) {v : Word} (hv : v.toNat < 2 ^ 1) (id k : Nat) :
    (b ||| v.setWidth 16 <<< id).getLsbD k = (b.getLsbD k || (decide (k < 16) && decide (id = k) && v.getLsbD 0)) := by
  rw [BitVec.getLsbD_or, BitVec.getLsbD_shiftLeft, BitVec.getLsbD_setWidth]
  congr 1
  obtain hlt | rfl | hgt := Nat.lt_trichotomy k id
  · simp [hlt, hlt.ne']
  · simp
  · simp [getLsbD_of_lt hv (Nat.sub_pos_of_lt hgt), hgt.ne]

/-- The bit a one-bit value was shifted to, where it was 0, reads as the value. -/
theorem flagIn_or_flag_self {b : BitVec 16} {v : Word} (hv : v.toNat < 2 ^ 1) {k : Nat} (hk : k < 16)
    (h0 : flagIn b k = 0) : flagIn (b ||| v.setWidth 16 <<< k) k = v := by
  rw [flagIn_eq_ite, getLsbD_or_flag b hv, (flagIn_eq_zero_iff b k).1 h0]
  obtain h | h : v.toNat = 0 ∨ v.toNat = 1 := by omega
  · obtain rfl : v = 0 := BitVec.eq_of_toNat_eq h
    simp
  · obtain rfl : v = 1 := BitVec.eq_of_toNat_eq h
    simp [hk]

-- A value written to a port.

/-- A value written to a port leaves every other port alone. -/
theorem portValue_writePort_of_ne {p q : FieldPort} (hpq : p ≠ q) {v : Word} (hv : v.toNat < 2 ^ p.width)
    (o : Outputs) : portValue (writePort p v o) q = portValue o q := by
  cases p with
  | flag id =>
    cases q with
    | flag k =>
      have hne : id ≠ k := fun h => hpq (congrArg FieldPort.flag h)
      simp only [portValue, writePort, flagIn_eq_ite, getLsbD_or_flag o.qFlags hv]
      simp [hne]
    | _ => rfl
  | _ => cases q <;> simp only [ne_eq, not_true_eq_false, portValue, writePort] at hpq ⊢

/-- A port carries the value written to it; a flag's bit must be in the bus, and 0 before. -/
theorem portValue_writePort_self {p : FieldPort} {v : Word} (hv : v.toNat < 2 ^ p.width) {o : Outputs}
    (h0 : ∀ k, p = .flag k → k < 16 ∧ portValue o p = 0) : portValue (writePort p v o) p = v := by
  cases p with
  | flag k =>
    obtain ⟨hk, hz⟩ := h0 k rfl
    exact flagIn_or_flag_self hv hk hz
  | mod =>
    have hv5 : v.toNat < 2 ^ 5 := hv
    refine BitVec.eq_of_toNat_eq ?_
    rw [portValue, writePort, zext, BitVec.toNat_setWidth, BitVec.toNat_setWidth, Nat.mod_eq_of_lt hv5,
      Nat.mod_eq_of_lt v.isLt]
  | _ => rfl

end Sys2Proof.Machine
end

section
/-! PROOFS. A decode over a layout whose fields stand on ports of their own (R78, R202, R205): what it leaves on every port,
in the error mask and in the record view. -/

namespace Sys2Proof.Machine

/-- What a layout's table gives every field: the width of its codes, and an id and a port of its own (R64). -/
structure FieldsApart (l : Layout) : Prop where
  width_eq : ∀ f ∈ l, f.width = codecWidth f.codec
  id_lt : ∀ f ∈ l, f.id < 16
  ids_nodup : (l.map Field.id).Nodup
  ports_nodup : (l.map portOf).Nodup

/-- The fields of every family's layout are apart, wherever the parameters put the two movable flags. -/
theorem layoutOf_fieldsApart (cfg : Config) (fam : Family) : FieldsApart (layoutOf cfg fam) where
  width_eq := width_eq_codecWidth cfg fam
  id_lt := by cases fam <;> simp [layoutOf, t55x7Layout, t5555Layout, em4x05Layout]
  ids_nodup := by cases fam <;> simp [layoutOf, t55x7Layout, t5555Layout, em4x05Layout]
  ports_nodup := by cases fam <;> simp [layoutOf, t55x7Layout, t5555Layout, em4x05Layout, portOf]

theorem FieldsApart.tail {f : Field} {fs : Layout} (h : FieldsApart (f :: fs)) : FieldsApart fs where
  width_eq g hg := h.width_eq g (List.mem_cons_of_mem _ hg)
  id_lt g hg := h.id_lt g (List.mem_cons_of_mem _ hg)
  ids_nodup := (List.nodup_cons.1 h.ids_nodup).2
  ports_nodup := (List.nodup_cons.1 h.ports_nodup).2

/-- The port of the first field is the port of no later one. -/
theorem FieldsApart.portOf_ne_head {f : Field} {fs : Layout} (h : FieldsApart (f :: fs)) :
    ∀ g ∈ fs, portOf g ≠ portOf f := fun _ hg he =>
  (List.nodup_cons.1 h.ports_nodup).1 (he ▸ List.mem_map_of_mem hg)

/-- Two fields with one id are one field. -/
theorem FieldsApart.eq_of_id_eq {l : Layout} (h : FieldsApart l) {f g : Field} (hf : f ∈ l) (hg : g ∈ l)
    (he : f.id = g.id) : f = g :=
  List.inj_on_of_nodup_map h.ids_nodup hf hg he

/-- The value or raw code a decode writes fits the field's port. -/
theorem carried_readingOf_lt (cfg : Config) {f : Field} (hw : f.width = codecWidth f.codec) (r : Word) :
    (Spec.carried (readingOf cfg f (extractField f r))).toNat < 2 ^ (portOf f).width := by
  have h55 : ∀ c, (Spec.carried (mod55Dec c)).toNat < 2 ^ 5 := by decide
  have h5555 : ∀ c, (Spec.carried (mod5555Dec c)).toNat < 2 ^ 5 := by decide
  have h4305 : ∀ c, (Spec.carried (mod4305Dec c)).toNat < 2 ^ 5 := by decide
  cases hc : f.codec <;> simp only [readingOf, portOf, hc, FieldPort.width]
  case flag =>
    have hw1 : f.width = 1 := by rw [hw, hc, codecWidth]
    rw [Spec.carried, extractField_eq_zext, hw1]
    exact zext_lt _
  case modT55x7 => exact h55 _
  case modT5555 => exact h5555 _
  case modEm4x05 => exact h4305 _
  all_goals exact (Spec.carried _).isLt

/-- A decode of a layout decodes its first field, whose value or raw code goes to the field's port, and then the rest. -/
theorem decodeFields_cons (cfg : Config) (r : Word) (f : Field) (fs : Layout) (o : Outputs) :
    ∃ o', decodeFields cfg r (f :: fs) o = decodeFields cfg r fs o'
      ∧ ∀ p, portValue o' p = portValue (writePort (portOf f) (Spec.carried (readingOf cfg f (extractField f r))) o) p := by
  rw [decodeFields]
  cases hrd : readingOf cfg f (extractField f r) with
  | known v => exact ⟨_, rfl, fun p => by rw [writeField_eq_writePort, Spec.carried]⟩
  | unknown raw =>
    exact ⟨_, rfl, fun p => by rw [portValue_markUnrecognized, writeField_eq_writePort, Spec.carried]⟩

/-- A decode leaves alone every port that none of its fields stands on. -/
theorem portValue_decodeFields_of_ne {cfg : Config} {r : Word} {l : Layout} {p : FieldPort} (hl : FieldsApart l)
    (hp : ∀ f ∈ l, portOf f ≠ p) (o : Outputs) : portValue (decodeFields cfg r l o) p = portValue o p := by
  induction l generalizing o with
  | nil => rfl
  | cons f fs ih =>
    obtain ⟨o', hrec, ho'⟩ := decodeFields_cons cfg r f fs o
    rw [hrec, ih hl.tail (fun g hg => hp g (List.mem_cons_of_mem _ hg)), ho',
      portValue_writePort_of_ne (hp f List.mem_cons_self)
        (carried_readingOf_lt cfg (hl.width_eq f List.mem_cons_self) r)]

/-- A decode leaves on each field's port the value or raw code of the field, where its flags were 0 before. -/
theorem portValue_decodeFields_of_mem {cfg : Config} {r : Word} {l : Layout} (hl : FieldsApart l) {f : Field} (hf : f ∈ l)
    {o : Outputs} (h0 : ∀ g ∈ l, ∀ k, portOf g = .flag k → portValue o (portOf g) = 0) :
    portValue (decodeFields cfg r l o) (portOf f) = Spec.carried (readingOf cfg f (extractField f r)) := by
  induction l generalizing o with
  | nil => cases hf
  | cons g gs ih =>
    obtain ⟨o', hrec, ho'⟩ := decodeFields_cons cfg r g gs o
    have hfit := carried_readingOf_lt cfg (hl.width_eq g List.mem_cons_self) r
    rw [hrec]
    obtain rfl | hgs := List.mem_cons.1 hf
    · rw [portValue_decodeFields_of_ne hl.tail hl.portOf_ne_head, ho', portValue_writePort_self hfit fun k hk => ?_]
      exact ⟨eq_id_of_portOf_eq_flag hk ▸ hl.id_lt f List.mem_cons_self, h0 f List.mem_cons_self k hk⟩
    · refine ih hl.tail hgs fun g' hg' k hk => ?_
      rw [ho', portValue_writePort_of_ne (hl.portOf_ne_head g' hg').symm hfit]
      exact h0 g' (List.mem_cons_of_mem _ hg') k hk

-- A whole decode.

/-- The outputs a decode starts from: the residue, and 0 elsewhere (R205). -/
def decodeStart (l : Layout) (r : Word) : Outputs := { Outputs.zero with qResidue := residueOf l r }

theorem portValue_decodeStart (l : Layout) (r : Word) (p : FieldPort) : portValue (decodeStart l r) p = 0 := by
  cases p with
  | flag k => rw [portValue, flagIn_eq_zero_iff]; exact BitVec.getLsbD_zero
  | _ => rfl

/-- A decode gives its fields as written, with the status that says whether its error mask is empty. -/
theorem decodeRegister_eq_withStatus (cfg : Config) (l : Layout) (r : Word) :
    ∃ st, decodeRegister cfg l r = { decodeFields cfg r l (decodeStart l r) with status := st }
      ∧ st = if (decodeRegister cfg l r).err = 0 then .ok else .unrecognizedField := by
  obtain ⟨o, rfl, ⟨h0, h⟩ | ⟨h0, h⟩⟩ := decodeRegister_cases cfg l r
  · refine ⟨(decodeFields cfg r l (decodeStart l r)).status, h, ?_⟩
    rw [(decodeFields_kept cfg r l _).1, h, if_pos h0]
    rfl
  · exact ⟨.unrecognizedField, h, by rw [h, if_neg h0]⟩

/-- A decode completes with OK where its error mask is empty, and with UNRECOGNIZED_FIELD where it is not (R205). -/
theorem decodeRegister_status (cfg : Config) (l : Layout) (r : Word) :
    (decodeRegister cfg l r).status = if (decodeRegister cfg l r).err = 0 then .ok else .unrecognizedField := by
  obtain ⟨st, h, hst⟩ := decodeRegister_eq_withStatus cfg l r
  rw [← hst, h]

/-- A decode gives no register value (R25). -/
theorem decodeRegister_regOut (cfg : Config) (l : Layout) (r : Word) : (decodeRegister cfg l r).regOut = 0 := by
  obtain ⟨st, h, -⟩ := decodeRegister_eq_withStatus cfg l r
  rw [h]
  exact (decodeFields_kept cfg r l _).2.1

/-- A decode gives the residue of its register value (R75). -/
theorem decodeRegister_qResidue (cfg : Config) (l : Layout) (r : Word) :
    (decodeRegister cfg l r).qResidue = residueOf l r := by
  obtain ⟨st, h, -⟩ := decodeRegister_eq_withStatus cfg l r
  rw [h]
  exact (decodeFields_kept cfg r l _).2.2

/-- An error bit of a decode is set exactly where a field with that id reads as unrecognised (R202). -/
theorem decodeRegister_err (cfg : Config) (l : Layout) (r : Word) {k : Nat} (hk : k < 16) :
    (decodeRegister cfg l r).err.getLsbD k = true ↔
      ∃ f ∈ l, f.id = k ∧ ∃ raw, readingOf cfg f (extractField f r) = .unknown raw := by
  obtain ⟨st, h, -⟩ := decodeRegister_eq_withStatus cfg l r
  rw [h, decodeFields_err cfg r l _ k hk]
  simp [decodeStart, Outputs.zero]

/-- A decode leaves at 0 every port that none of its fields stands on (R25). -/
theorem portValue_decodeRegister_of_ne {cfg : Config} {l : Layout} (hl : FieldsApart l) (r : Word) {p : FieldPort}
    (hp : ∀ f ∈ l, portOf f ≠ p) : portValue (decodeRegister cfg l r) p = 0 := by
  obtain ⟨st, h, -⟩ := decodeRegister_eq_withStatus cfg l r
  rw [h, portValue_withStatus, portValue_decodeFields_of_ne hl hp, portValue_decodeStart]

/-- A decode leaves on each field's port the value or raw code of the field (R78, R202). -/
theorem outputValue_decodeRegister {cfg : Config} {l : Layout} (hl : FieldsApart l) (r : Word) {f : Field} (hf : f ∈ l) :
    outputValue (decodeRegister cfg l r) f = Spec.carried (readingOf cfg f (extractField f r)) := by
  obtain ⟨st, h, -⟩ := decodeRegister_eq_withStatus cfg l r
  rw [outputValue_eq_portValue, h, portValue_withStatus,
    portValue_decodeFields_of_mem hl hf fun _ _ _ _ => portValue_decodeStart l r _]

/-- The record view of one field of a decode is the reading of the field's extracted code (R28). -/
theorem fieldReading_decodeRegister {cfg : Config} {l : Layout} (hl : FieldsApart l) (r : Word) {f : Field} (hf : f ∈ l) :
    fieldReading (decodeRegister cfg l r) f = readingOf cfg f (extractField f r) := by
  have herr := decodeRegister_err cfg l r (hl.id_lt f hf)
  rw [fieldReading, outputValue_decodeRegister hl r hf]
  cases hrd : readingOf cfg f (extractField f r) with
  | unknown raw => rw [if_pos (herr.2 ⟨f, hf, rfl, raw, hrd⟩), Spec.carried]
  | known v =>
    refine if_neg fun hbit => ?_
    obtain ⟨g, hg, hid, raw, hraw⟩ := herr.1 hbit
    obtain rfl := hl.eq_of_id_eq hg hf hid
    rw [hrd] at hraw
    cases hraw

/-- The record view of a decode's outputs: every field with its reading, and the residue (R28). -/
theorem decodeRecord_decodeRegister (cfg : Config) (fam : Family) (r : Word) :
    decodeRecord cfg fam (decodeRegister cfg (layoutOf cfg fam) r) = .ok {
      fields := (layoutOf cfg fam).map fun f => (f.name, readingOf cfg f (extractField f r)),
      residue := residueOf (layoutOf cfg fam) r } := by
  have hfields : ((layoutOf cfg fam).map fun f => (f.name, fieldReading (decodeRegister cfg (layoutOf cfg fam) r) f))
      = (layoutOf cfg fam).map fun f => (f.name, readingOf cfg f (extractField f r)) :=
    List.map_congr_left fun f hf => by rw [fieldReading_decodeRegister (layoutOf_fieldsApart cfg fam) r hf]
  rw [decodeRecord, decodeRegister_status, decodeRegister_qResidue, hfields]
  by_cases h0 : (decodeRegister cfg (layoutOf cfg fam) r).err = 0
  · rw [if_pos h0]
  · rw [if_neg h0]

end Sys2Proof.Machine
end

section
/-! PROOFS. The operations by kind and family (R61): an encode and a decode of a family are an encode and a decode over the
family's layout, the layouts are well-formed for legal parameters (R76), and which outputs each kind writes (R24, R25). -/

namespace Sys2Proof.Machine

-- The kind and family of an operation.

/-- Each kind and family has one operation (R61). -/
theorem roleOf_injective {i j : Instr} (h : roleOf i = roleOf j) : i = j := by
  cases i <;> cases j <;> simp only [roleOf, reduceCtorEq, Role.encode.injEq, Role.decode.injEq] at h ⊢

@[simp] theorem roleOf_encodeInstr (fam : Family) : roleOf (encodeInstr fam) = .encode fam := by
  cases fam <;> rfl

@[simp] theorem roleOf_decodeInstr (fam : Family) : roleOf (decodeInstr fam) = .decode fam := by
  cases fam <;> rfl

theorem eq_encodeInstr_of_roleOf {i : Instr} {fam : Family} (h : roleOf i = .encode fam) : i = encodeInstr fam :=
  roleOf_injective (h.trans (roleOf_encodeInstr fam).symm)

theorem eq_decodeInstr_of_roleOf {i : Instr} {fam : Family} (h : roleOf i = .decode fam) : i = decodeInstr fam :=
  roleOf_injective (h.trans (roleOf_decodeInstr fam).symm)

@[simp] theorem evaluation_encodeInstr (fam : Family) (cfg : Config) (x : Inputs) :
    evaluation (encodeInstr fam) cfg x = encodeRegister cfg (layoutOf cfg fam) x := by
  cases fam <;> rfl

@[simp] theorem evaluation_decodeInstr (fam : Family) (cfg : Config) (x : Inputs) :
    evaluation (decodeInstr fam) cfg x = decodeRegister cfg (layoutOf cfg fam) x.regIn := by
  cases fam <;> rfl

/-- An operation with legal parameters completes, and adds the outputs of its rule. -/
theorem exec_of_legal (i : Instr) {s : State} (h : s.config.legal = true) :
    exec i s = .next { s with results := s.results ++ [evaluation i s.config s.inp] } := by
  rw [exec_eq_present, present_of_legal _ h]

/-- Legal parameters give every family a well-formed layout (R76). -/
theorem layoutOf_wellFormed {cfg : Config} (h : cfg.legal = true) (fam : Family) :
    Layout.wellFormed (layoutOf cfg fam) = true := by
  cases fam with
  | t55x7 => show Layout.wellFormed t55x7Layout = true; decide
  | em4x05 => show Layout.wellFormed em4x05Layout = true; decide
  | t5555 =>
    obtain ⟨-, ⟨hfw, hfw'⟩, ⟨hps, hps'⟩, hne⟩ := (config_legal_iff cfg).1 h
    simp [Layout.wellFormed, layoutOf, t5555Layout, Field.inWord, Field.disjoint]
    omega

-- The ids and the ports of a family's fields.

/-- A field's id is a bit of the family's mask on `err` (R64). -/
theorem idMask_getLsbD_id {cfg : Config} {fam : Family} {f : Field} (hf : f ∈ layoutOf cfg fam) :
    (idMask fam).getLsbD f.id = true := by
  revert f
  cases fam <;> simp [layoutOf, t55x7Layout, t5555Layout, em4x05Layout, idMask]

/-- A boolean field's bit is a bit of the family's mask on the flags bus (R64). -/
theorem flagMask_getLsbD_of_portOf {cfg : Config} {fam : Family} {f : Field} (hf : f ∈ layoutOf cfg fam) {k : Nat}
    (hk : portOf f = .flag k) : (flagMask fam).getLsbD k = true := by
  revert f k
  cases fam <;> simp [layoutOf, t55x7Layout, t5555Layout, em4x05Layout, flagMask, portOf]

/-- The EM4x05 has no max-block field (R67). -/
theorem portOf_em4x05_ne_maxblk {cfg : Config} : ∀ f ∈ layoutOf cfg .em4x05, portOf f ≠ .maxblk := by
  simp [layoutOf, em4x05Layout, portOf]

/-- The T55x7 and the T5555 have no block-count field (R65, R66). -/
theorem portOf_ne_nblocks {cfg : Config} {fam : Family} (h : fam ≠ .em4x05) :
    ∀ f ∈ layoutOf cfg fam, portOf f ≠ .nblocks := by
  cases fam with
  | em4x05 => exact absurd rfl h
  | t55x7 => simp [layoutOf, t55x7Layout, portOf]
  | t5555 => simp [layoutOf, t5555Layout, portOf]

/-- A mask whose bits are all in another has none outside it. -/
theorem and_not_eq_zero {b m : BitVec 16} (h : ∀ k < 16, b.getLsbD k = true → m.getLsbD k = true) : b &&& ~~~m = 0 := by
  refine BitVec.eq_of_getLsbD_eq fun k hk => ?_
  cases hb : b.getLsbD k with
  | false => simp [hb]
  | true => simp [hb, h k hk hb]

-- What each kind of operation writes.

/-- An encode reports the mask of all its invalid fields, 0 included (R205). -/
theorem encodeRegister_err (cfg : Config) (l : Layout) (x : Inputs) :
    (encodeRegister cfg l x).err = invalidMask cfg x l := by
  obtain ⟨h0, h⟩ | ⟨-, h⟩ := encodeRegister_cases cfg l x
  · rw [h, h0]
    rfl
  · rw [h]
    rfl

/-- An encode writes its status, its error mask and its register value only (R24, R25). -/
theorem encodeRegister_writes (cfg : Config) (l : Layout) (x : Inputs) :
    ∃ st err w, encodeRegister cfg l x = { Outputs.zero with status := st, err := err, regOut := w } := by
  obtain ⟨-, h⟩ | ⟨-, h⟩ := encodeRegister_cases cfg l x
  · exact ⟨.ok, 0, assemble cfg x l, h⟩
  · exact ⟨.invalidField, invalidMask cfg x l, 0, h⟩

/-- All that CLKBIT can give: a code, or the error bit of the BITRATE field (R112). -/
theorem t55x7ClockBit_cases (x : Inputs) :
    (∃ w, t55x7ClockBit x = okRegister w) ∨ t55x7ClockBit x = raiseInvalidField (1#16 <<< 8) := by
  unfold t55x7ClockBit
  cases clkEnc x.pDiv with
  | some c => exact .inl ⟨zext c, rfl⟩
  | none => exact .inr rfl

/-- An error bit of a family's encode is a field id of the family. -/
theorem encodeRegister_err_and_not_idMask (cfg : Config) (fam : Family) (x : Inputs) :
    (encodeRegister cfg (layoutOf cfg fam) x).err &&& ~~~idMask fam = 0 := by
  refine and_not_eq_zero fun k hk hbit => ?_
  rw [encodeRegister_err] at hbit
  obtain ⟨f, hf, rfl, -⟩ := (invalidMask_getLsbD cfg x _ k hk).1 hbit
  exact idMask_getLsbD_id hf

/-- An error bit of a family's decode is a field id of the family. -/
theorem decodeRegister_err_and_not_idMask (cfg : Config) (fam : Family) (r : Word) :
    (decodeRegister cfg (layoutOf cfg fam) r).err &&& ~~~idMask fam = 0 := by
  refine and_not_eq_zero fun k hk hbit => ?_
  obtain ⟨f, hf, rfl, -⟩ := (decodeRegister_err cfg _ r hk).1 hbit
  exact idMask_getLsbD_id hf

/-- A bit a family's decode sets on the flags bus is a boolean field id of the family. -/
theorem decodeRegister_qFlags_and_not_flagMask (cfg : Config) (fam : Family) (r : Word) :
    (decodeRegister cfg (layoutOf cfg fam) r).qFlags &&& ~~~flagMask fam = 0 := by
  refine and_not_eq_zero fun k _ hbit => ?_
  by_contra hmask
  have hport : portValue (decodeRegister cfg (layoutOf cfg fam) r) (.flag k) = 0 :=
    portValue_decodeRegister_of_ne (layoutOf_fieldsApart cfg fam) r
      fun f hf hk => hmask (flagMask_getLsbD_of_portOf hf hk)
  rw [portValue, flagIn_eq_zero_iff, hbit] at hport
  cases hport

end Sys2Proof.Machine
end

section
/-! PROOFS. The round trip of an encoded record over a family's layout (V8, R113, R153, R183). -/

namespace Sys2Proof.Machine

/-- An encode with status OK has no invalid field, and gives the assembled register value. -/
theorem encodeRegister_of_status_ok {cfg : Config} {l : Layout} {x : Inputs} (h : (encodeRegister cfg l x).status = .ok) :
    invalidMask cfg x l = 0 ∧ (encodeRegister cfg l x).regOut = assemble cfg x l := by
  obtain ⟨h0, he⟩ | ⟨-, he⟩ := encodeRegister_cases cfg l x
  · exact ⟨h0, by rw [he, okRegister]⟩
  · rw [he, raiseInvalidField] at h
    cases h

/-- Where no field is invalid, every field's input has a code. -/
theorem exists_code_of_invalidMask_eq_zero {cfg : Config} {x : Inputs} {l : Layout} (hl : FieldsApart l)
    (h : invalidMask cfg x l = 0) {f : Field} (hf : f ∈ l) : ∃ c, codeOfInput cfg x f = some c := by
  refine Option.ne_none_iff_exists'.1 fun hnone => ?_
  have hbit := (invalidMask_getLsbD cfg x l f.id (hl.id_lt f hf)).2 ⟨f, hf, rfl, hnone⟩
  rw [h] at hbit
  simp at hbit

/-- In the register value of an accepted record, every field reads as the record's value. -/
theorem readingOf_extractField_assemble {cfg : Config} (hcfg : cfg.legal = true) {fam : Family} {x : Inputs}
    (h : invalidMask cfg x (layoutOf cfg fam) = 0) {f : Field} (hf : f ∈ layoutOf cfg fam) :
    readingOf cfg f (extractField f (assemble cfg x (layoutOf cfg fam))) = .known (inputValue x f) := by
  obtain ⟨c, hc⟩ := exists_code_of_invalidMask_eq_zero (layoutOf_fieldsApart cfg fam) h hf
  rw [extractField_assemble (layoutOf_wellFormed hcfg fam) (codesFit_layoutOf cfg fam x) hf hc, readingOf_codeOfInput hc]

/-- A decode whose fields all read as known has status OK. -/
theorem decodeRegister_status_ok {cfg : Config} {l : Layout} {r : Word}
    (h : ∀ f ∈ l, ∃ v, readingOf cfg f (extractField f r) = .known v) : (decodeRegister cfg l r).status = .ok := by
  rw [decodeRegister_status]
  refine if_pos (BitVec.eq_of_getLsbD_eq fun k hk => ?_)
  rw [BitVec.ofNat_eq_ofNat, BitVec.getLsbD_zero, ← Bool.not_eq_true, decodeRegister_err cfg l r hk]
  rintro ⟨f, hf, -, raw, hraw⟩
  obtain ⟨v, hv⟩ := h f hf
  rw [hv] at hraw
  cases hraw

/-- Settles O42: each field of the assembled register value reads as the record's value, so the decode has status OK and its
record view is the parameter record. -/
theorem encodedRecordsDecodeInEveryFamily : Obligations.EncodedRecordsDecodeInEveryFamily := by
  intro fam s t o hexec hread hok
  have hlegal := (exec_next hexec).1
  obtain rfl := readOutputs_exec hexec hread
  rw [evaluation_encodeInstr] at hok ⊢
  obtain ⟨hvalid, hreg⟩ := encodeRegister_of_status_ok hok
  have hrd := fun f hf => readingOf_extractField_assemble (f := f) hlegal hvalid hf
  refine ⟨_, _, exec_of_legal _ hlegal, readOutputs_append rfl, ?_⟩
  rw [evaluation_decodeInstr, decodeInputs, hreg]
  refine ⟨decodeRegister_status_ok fun f hf => ⟨_, hrd f hf⟩, ?_⟩
  rw [decodeRecord_decodeRegister, residueOf_assemble (codesFit_layoutOf s.config fam s.inp), parameterRecord,
    List.map_map]
  congr 2
  exact List.map_congr_left fun f hf => congrArg (Prod.mk f.name) (hrd f hf)

end Sys2Proof.Machine
end

section
/-! PROOFS. The inputs an operation reads (R23, R61, R64), and the obligations about one evaluation: its outputs, its frame,
the outputs it does not write, the inputs it does not read, and the record view of a decode. -/

namespace Sys2Proof.Machine

-- An encode depends on its fields' input ports only.

/-- The code of an input depends on what the field's own port carries only. -/
theorem codeOfInput_congr {cfg : Config} {x y : Inputs} {f : Field} (h : inputValue x f = inputValue y f) :
    codeOfInput cfg x f = codeOfInput cfg y f := by
  have hmod : zext x.pMod = zext y.pMod → x.pMod = y.pMod := fun he => by
    rw [← setWidth_zext x.pMod (by decide), he, setWidth_zext y.pMod (by decide)]
  cases hc : f.codec <;> simp only [inputValue, codeOfInput, hc] at h ⊢
  case modT55x7 | modT5555 | modEm4x05 => rw [hmod h]
  all_goals rw [h]

/-- An encode depends on what its fields' ports carry only. -/
theorem encodeRegister_congr {cfg : Config} {x y : Inputs} {l : Layout} (h : ∀ f ∈ l, inputValue x f = inputValue y f) :
    encodeRegister cfg l x = encodeRegister cfg l y := by
  have hboth : invalidMask cfg x l = invalidMask cfg y l ∧ assemble cfg x l = assemble cfg y l := by
    induction l with
    | nil => exact ⟨rfl, rfl⟩
    | cons f fs ih =>
      obtain ⟨hm, ha⟩ := ih fun g hg => h g (List.mem_cons_of_mem _ hg)
      have hf := codeOfInput_congr (cfg := cfg) (h f List.mem_cons_self)
      exact ⟨by rw [invalidMask, invalidMask, hf, hm], by rw [assemble, assemble, hf, ha]⟩
  rw [encodeRegister, encodeRegister, hboth.1, hboth.2]

/-- A bit of the flags bus that a mask keeps. -/
theorem flagIn_and_of_getLsbD {b m : BitVec 16} {k : Nat} (h : m.getLsbD k = true) : flagIn (b &&& m) k = flagIn b k := by
  rw [flagIn_eq_ite, flagIn_eq_ite, BitVec.getLsbD_and, h, Bool.and_true]

/-- An encode reads the boolean field ids of its family on the flags bus, and no other bit (R64). -/
theorem readInputs_encodeInstr_pFlags (fam : Family) (x : Inputs) :
    (readInputs (encodeInstr fam) x).pFlags = x.pFlags &&& flagMask fam := by
  cases fam <;> rfl

/-- Every field of a family stands on an input port that its encode reads. -/
theorem inputValue_readInputs {cfg : Config} {fam : Family} (x : Inputs) {f : Field} (hf : f ∈ layoutOf cfg fam) :
    inputValue (readInputs (encodeInstr fam) x) f = inputValue x f := by
  cases hc : f.codec <;> simp only [inputValue, hc]
  case flag =>
    rw [readInputs_encodeInstr_pFlags]
    exact flagIn_and_of_getLsbD (flagMask_getLsbD_of_portOf hf (by simp only [portOf, hc]))
  case maxblk =>
    cases fam with
    | em4x05 => exact absurd (by simp only [portOf, hc]) (portOf_em4x05_ne_maxblk f hf)
    | _ => rfl
  case nblocks =>
    cases fam with
    | em4x05 => rfl
    | _ => exact absurd (by simp only [portOf, hc]) (portOf_ne_nblocks (by decide) f hf)
  all_goals cases fam <;> rfl

/-- The inputs an operation does not read have no effect on its outputs. -/
theorem evaluation_readInputs (i : Instr) (cfg : Config) (x : Inputs) :
    evaluation i cfg (readInputs i x) = evaluation i cfg x := by
  cases hrole : roleOf i with
  | encode fam =>
    obtain rfl := eq_encodeInstr_of_roleOf hrole
    rw [evaluation_encodeInstr, evaluation_encodeInstr]
    exact encodeRegister_congr fun f hf => inputValue_readInputs x hf
  | decode fam =>
    obtain rfl := eq_decodeInstr_of_roleOf hrole
    rw [evaluation_decodeInstr, evaluation_decodeInstr, readInputs, hrole]
  | clkbit =>
    obtain rfl : i = .t55x7Clkbit := roleOf_injective hrole
    rfl
  | reserved =>
    obtain rfl : i = .reservedOp := roleOf_injective hrole
    rfl

/-- Settles O7: a step performs the operation that the issued `op` selects, on the issued inputs. -/
theorem stepComputesTheEvaluation : Obligations.StepComputesTheEvaluation := by
  intro s x rest hlegal hprog
  rw [step, fetch_cons hprog]
  exact exec_of_legal (decodeOp x.op) (s := { s with inp := x, program := rest }) hlegal

/-- Settles O13: an evaluation that completes has only added the outputs of its rule. -/
theorem evaluationFrame : Obligations.EvaluationFrame := by
  intro i s t h
  obtain ⟨-, rfl⟩ := exec_next h
  exact ⟨rfl, rfl, rfl, _, rfl⟩

/-- Settles O26, by the kind of the operation: an encode and CLKBIT write a register value, a decode writes its fields'
ports. -/
theorem unwrittenOutputsAreZero : Obligations.UnwrittenOutputsAreZero := by
  intro i s t o hexec hread
  obtain rfl := readOutputs_exec hexec hread
  refine ⟨fun fam hrole => ?_, fun hrole => ?_, fun fam hrole => ?_, fun hrole => ?_⟩
  · obtain rfl := eq_encodeInstr_of_roleOf hrole
    have herr := encodeRegister_err_and_not_idMask s.config fam s.inp
    rw [evaluation_encodeInstr]
    obtain ⟨st, err, w, hw⟩ := encodeRegister_writes s.config (layoutOf s.config fam) s.inp
    rw [hw] at herr ⊢
    exact ⟨rfl, rfl, rfl, rfl, rfl, rfl, rfl, herr⟩
  · obtain rfl : i = .t55x7Clkbit := roleOf_injective hrole
    rw [evaluation]
    obtain ⟨w, hw⟩ | hw := t55x7ClockBit_cases s.inp
    · rw [hw]
      exact ⟨rfl, rfl, rfl, rfl, rfl, rfl, rfl, BitVec.zero_and⟩
    · rw [hw]
      exact ⟨rfl, rfl, rfl, rfl, rfl, rfl, rfl, rfl⟩
  · obtain rfl := eq_decodeInstr_of_roleOf hrole
    rw [evaluation_decodeInstr]
    have hunwritten := fun p => portValue_decodeRegister_of_ne (cfg := s.config) (p := p) (layoutOf_fieldsApart s.config fam)
      s.inp.regIn
    refine ⟨decodeRegister_regOut .., ?_, fun hne => hunwritten .nblocks (portOf_ne_nblocks hne),
      decodeRegister_qFlags_and_not_flagMask .., decodeRegister_err_and_not_idMask ..⟩
    rintro rfl
    exact hunwritten .maxblk portOf_em4x05_ne_maxblk
  · obtain rfl : i = .reservedOp := roleOf_injective hrole
    rfl

/-- Settles O27: the operation's rule gives the same outputs on the inputs it reads. -/
theorem unreadInputsHaveNoEffect : Obligations.UnreadInputsHaveNoEffect := by
  intro i s t h
  obtain ⟨hlegal, rfl⟩ := exec_next h
  rw [exec_of_legal i (s := { s with inp := readInputs i s.inp }) hlegal, evaluation_readInputs]

/-- Settles O46: the outputs of a family's decode are those of the decode over the family's layout, whose record view holds
every reading. -/
theorem decodeRecordHoldsEveryReading : Obligations.DecodeRecordHoldsEveryReading := by
  intro fam s t o hexec hread
  obtain rfl := readOutputs_exec hexec hread
  rw [evaluation_decodeInstr, decodeRecord_decodeRegister]

end Sys2Proof.Machine
end

section
/-! PROOFS. The steps and the run of a caller's program (R26, R239), and the obligations of spec/20_memory.md: nothing of one
evaluation reaches the outputs of another (R47). -/

namespace Sys2Proof.Machine

/-- The inversion of a step: if it answers a next state, the parameters are legal and the state gained the outputs of the
issued inputs. -/
theorem step_next {s t : State} {x : Inputs} {rest : List Inputs} (hprog : s.program = x :: rest) (h : step s = .next t) :
    s.config.legal = true
      ∧ t = { s with inp := x, program := rest, results := s.results ++ [tcrc s.config x] } := by
  rw [step, fetch_cons hprog] at h
  exact exec_next h

/-- The outputs read after a step are those of the issued inputs. -/
theorem readOutputs_step {s t : State} {x : Inputs} {rest : List Inputs} (hprog : s.program = x :: rest)
    (h : step s = .next t) : readOutputs t = .ok (tcrc s.config x) := by
  obtain ⟨-, rfl⟩ := step_next hprog h
  exact readOutputs_append rfl

/-- A run whose first step completes goes on from the next state. -/
theorem run_succ_of_step {M : Host.Core} {s t : M.State} (h : M.step s = .next t) (k : Nat) :
    M.run (k + 1) s = M.run k t := by
  rw [Host.Core.run, h]

/-- The state that a complete run of the evaluations `xs` leaves: the last of them on the input ports, and the outputs of each
added in order (R239). -/
def afterRun (xs : List Inputs) (s : State) : State :=
  { s with inp := xs.getLast?.getD s.inp, program := [], results := s.results ++ xs.map (tcrc s.config) }

/-- A complete run of no evaluation changes nothing. -/
theorem afterRun_nil {s : State} (hprog : s.program = []) : afterRun [] s = s := by
  rw [afterRun, List.map_nil, List.append_nil, List.getLast?_nil, Option.getD_none, ← hprog]

/-- A complete run is its first evaluation and the complete run of the others. -/
theorem afterRun_cons (x : Inputs) (rest : List Inputs) (s : State) :
    afterRun (x :: rest) s
      = afterRun rest { s with inp := x, program := rest, results := s.results ++ [tcrc s.config x] } := by
  simp [afterRun, List.getLast?_cons]

/-- The run of a whole program completes, by induction on the program. -/
theorem run_of_program (xs : List Inputs) {s : State} (hlegal : s.config.legal = true) (hprog : s.program = xs) :
    Host.Core.run Sys2Proof.core xs.length s = .next (afterRun xs s) := by
  induction xs generalizing s with
  | nil =>
    rw [afterRun_nil hprog]
    rfl
  | cons x rest ih =>
    rw [afterRun_cons]
    have hstep := stepComputesTheEvaluation s x rest hlegal hprog
    exact (run_succ_of_step (M := Sys2Proof.core) hstep rest.length).trans (ih hlegal rfl)

/-- The run of a program that the caller has set adds the list of the outputs of its inputs. -/
theorem run_setProgram (xs : List Inputs) {s : State} (hlegal : s.config.legal = true) :
    ∃ t : State, Host.Core.run Sys2Proof.core xs.length (setProgram xs s) = .next t
      ∧ t.results = s.results ++ xs.map (tcrc s.config) :=
  ⟨_, run_of_program xs (s := setProgram xs s) hlegal rfl, rfl⟩

/-- Each input of a program paired with the outputs the run gave it: the graph of the function of R26 on the program. -/
theorem zip_drop_results {s t : State} {xs : List Inputs} (h : t.results = s.results ++ xs.map (tcrc s.config)) :
    xs.zip (t.results.drop s.results.length) = xs.map fun x => (x, tcrc s.config x) := by
  rw [h, List.drop_left, List.map_prod_left_eq_zip]

/-- Settles O8: both states read the outputs of the same function of R26 on the same parameters and inputs. -/
theorem outputsDependOnlyOnTheIssuedInputs : Obligations.OutputsDependOnlyOnTheIssuedInputs := by
  intro s t s' t' x p q hs ht hconfig hstep hstep'
  rw [readOutputs_step hs hstep, readOutputs_step ht hstep', hconfig]

/-- Settles O10: each run pairs every input with its value of one function, so permuted programs give permuted pairs. -/
theorem everyInterleavingGivesTheSameOutputs : Obligations.EveryInterleavingGivesTheSameOutputs := by
  intro s xs ys hlegal hperm
  obtain ⟨t, hrun, ht⟩ := run_setProgram xs hlegal
  obtain ⟨u, hrun', hu⟩ := run_setProgram ys hlegal
  refine ⟨t, u, hrun, hrun', ?_⟩
  rw [zip_drop_results ht, zip_drop_results hu]
  exact hperm.map _

end Sys2Proof.Machine
end

section
/-! PROOFS. The operation select (R61, R62), and the field layouts and masks (R75, R76) for all legal parameters. -/

namespace Sys2Proof.Machine

/-- The `op` value of an operation selects the operation (R61). -/
@[simp] theorem decodeOp_encodeOp (i : Instr) : decodeOp (encodeOp i) = i := by
  cases i <;> rfl

/-- Settles O1: each table word is the `op` value of its row. -/
theorem opSelectFollowsTheTable : Obligations.OpSelectFollowsTheTable :=
  ⟨rfl, rfl, rfl, rfl, rfl, rfl, rfl, rfl⟩

/-- Settles O2: the second direction is over the eight values of `op`. -/
theorem opDecodeAndEncodeAgree : Obligations.OpDecodeAndEncodeAgree :=
  ⟨decodeOp_encodeOp, by decide⟩

/-- Settles O21: the rule of the reserved operation reads no input. -/
theorem reservedOpResult : Obligations.ReservedOpResult :=
  fun _ hlegal => exec_of_legal .reservedOp hlegal

/-- Two fields whose bit ranges are apart have no bit in common in place. -/
theorem fieldBits_and_eq_zero {f g : Field} (h : f.shift + f.width ≤ g.shift ∨ g.shift + g.width ≤ f.shift) :
    fieldBits f &&& fieldBits g = 0 := by
  refine BitVec.eq_of_getLsbD_eq fun j hj => ?_
  rw [BitVec.getLsbD_and, fieldBits_getLsbD f j hj, fieldBits_getLsbD g j hj, BitVec.ofNat_eq_ofNat, BitVec.getLsbD_zero,
    ← Bool.not_eq_true]
  simp only [Bool.and_eq_true, decide_eq_true_eq]
  omega

/-- Settles O36: the layout check says that the bit ranges are apart and within the word, and legal parameters pass it. -/
theorem layoutsAreDisjoint : Obligations.LayoutsAreDisjoint := by
  refine ⟨fun cfg fam hlegal => ?_, fun cfg hbad => instantiate_of_illegal ?_⟩
  · have hwf := layoutOf_wellFormed hlegal fam
    obtain ⟨hword, hapart⟩ := (Layout_wellFormed_iff _).1 hwf
    exact ⟨hwf, hapart.imp fieldBits_and_eq_zero, fun f hf => (hword f hf).2⟩
  · refine Bool.eq_false_of_not_eq_true fun hlegal => ?_
    rw [show Layout.wellFormed (t5555Layout cfg) = true from layoutOf_wellFormed hlegal .t5555] at hbad
    cases hbad

/-- The T5555 mask: the eight fields below bit 18, and the two flags where the parameters put them. -/
theorem fieldMask_t5555Layout (cfg : Config) :
    fieldMask (t5555Layout cfg) = 0x0003FFFF#32 ||| 1#32 <<< cfg.fwBit ||| 1#32 <<< cfg.psBit := by
  simp [fieldMask, t5555Layout, fieldBits, lowMask, ← BitVec.or_assoc]

/-- Settles O37: the closed masks are computed, and the residue is by its definition the bits outside the mask. -/
theorem fieldMasks : Obligations.FieldMasks :=
  ⟨by decide, by decide, by decide, fun cfg _ => fieldMask_t5555Layout cfg, fun _ _ => rfl⟩

end Sys2Proof.Machine
end

section
/-! PROOFS. The fields' input ports (R64): what a value placed on the port of one field leaves there and on the others, and
the obligations about the operands of an assembler line (R83). -/

namespace Sys2Proof.Machine

-- An input port read and set.

/-- What an input port carries, as a word (R23). -/
def inputPort (x : Inputs) : FieldPort → Word
  | .flag k => flagIn x.pFlags k
  | .maxblk => x.pMaxblk
  | .psk => x.pPsk
  | .mod => zext x.pMod
  | .div => x.pDiv
  | .nblocks => x.pNblocks

/-- The width of a field's input port (R23): the modulation is one bit narrower than on the output side. -/
def FieldPort.inputWidth : FieldPort → Nat
  | .flag _ => 1
  | .mod => 4
  | .maxblk | .psk | .div | .nblocks => 32

theorem inputValue_eq_inputPort (x : Inputs) (f : Field) : inputValue x f = inputPort x (portOf f) := by
  unfold inputValue portOf
  cases f.codec <;> rfl

-- A value placed on an input port.

/-- A bit put into a flags bus leaves every other bit alone (R64). -/
theorem getLsbD_setFlag_of_ne (b : BitVec 16) (v : Word) {f : Field} {k : Nat} (h : f.id ≠ k) :
    ((b &&& ~~~errBit f) ||| (v &&& 1).setWidth 16 <<< f.id).getLsbD k = b.getLsbD k := by
  have hv : (v &&& 1).toNat < 2 ^ 1 := BitVec.toNat_and .. ▸ Nat.and_lt_two_pow _ (by decide)
  rw [getLsbD_or_flag _ hv, BitVec.getLsbD_and, BitVec.getLsbD_not, decide_eq_false h, Bool.and_false, Bool.false_and,
    Bool.or_false]
  by_cases hk : k < 16
  · rw [errBit_getLsbD f k hk, decide_eq_false h, decide_eq_true hk, Bool.not_false, Bool.and_true, Bool.and_true]
  · rw [BitVec.getLsbD_of_ge _ _ (Nat.le_of_not_lt hk), Bool.false_and]

/-- A value placed on a field's input port leaves every other port alone (R64). -/
theorem inputPort_setInput_of_ne {f : Field} {p : FieldPort} (h : portOf f ≠ p) (v : Word) (x : Inputs) :
    inputPort (setInput f v x) p = inputPort x p := by
  cases hc : f.codec <;> simp only [portOf, setInput, hc] at h ⊢
  case flag =>
    cases p with
    | flag k =>
      have hid : f.id ≠ k := fun he => h (congrArg FieldPort.flag he)
      rw [inputPort, inputPort, flagIn_eq_ite, flagIn_eq_ite, getLsbD_setFlag_of_ne _ _ hid]
    | _ => rfl
  all_goals cases p <;> simp only [inputPort, ne_eq, not_true_eq_false] at h ⊢

/-- The input port of a field carries the value placed on it, where the value fits the port and the field's id is a bit of
the flags bus. -/
theorem inputValue_setInput_self {f : Field} (hid : f.id < 16) {v : Word} (hv : v.toNat < 2 ^ (portOf f).inputWidth)
    (x : Inputs) : inputValue (setInput f v x) f = v := by
  have hmod : v.toNat < 2 ^ 4 → zext (v.setWidth 4) = v := fun h =>
    BitVec.eq_of_toNat_eq (by simp [zext]; omega)
  cases hc : f.codec <;> simp only [portOf, setInput, inputValue, hc, FieldPort.inputWidth] at hv ⊢
  case flag =>
    have hand : v &&& 1 = v := BitVec.eq_of_toNat_eq (by simp; omega)
    have hclear : flagIn (x.pFlags &&& ~~~errBit f) f.id = 0 := by
      rw [flagIn_eq_zero_iff, BitVec.getLsbD_and, BitVec.getLsbD_not, errBit_getLsbD f f.id hid, decide_eq_true rfl,
        Bool.not_true, Bool.and_false, Bool.and_false]
    rw [hand]
    exact flagIn_or_flag_self hv hid hclear
  case modT55x7 | modT5555 | modEm4x05 => exact hmod hv

/-- In a layout whose fields are apart, a value placed on one field's port leaves every other field's value alone. -/
theorem FieldsApart.inputValue_setInput_of_ne {l : Layout} (hl : FieldsApart l) {f g : Field} (hf : f ∈ l) (hg : g ∈ l)
    (hne : f ≠ g) (v : Word) (x : Inputs) : inputValue (setInput f v x) g = inputValue x g := by
  have hport : portOf f ≠ portOf g := fun he => hne (List.inj_on_of_nodup_map hl.ports_nodup hf hg he)
  rw [inputValue_eq_inputPort, inputPort_setInput_of_ne hport, inputValue_eq_inputPort]

-- The operands of an encode line.

/-- In every layout the fields' names are different (R65 to R67). -/
theorem layoutOf_names_nodup (cfg : Config) (fam : Family) : ((layoutOf cfg fam).map Field.name).Nodup := by
  cases fam <;> simp [layoutOf, t55x7Layout, t5555Layout, em4x05Layout]

/-- All that placing an operand on a family's encode can do: its value goes to the one field of its name (R83). -/
theorem placeField_ok {cfg : Config} {fam : Family} {n : FieldName} {v : AsmValue} {x y : Inputs}
    (h : placeField cfg fam n v x = .ok y) :
    ∃ f ∈ layoutOf cfg fam, ∃ w, f.name = n ∧ fieldOperand f v = .ok w ∧ y = setInput f w x := by
  unfold placeField at h
  split at h
  · cases h
  · next f hfind =>
    split at h
    · next w hw =>
      cases h
      exact ⟨f, List.mem_of_find?_eq_some hfind, w, by simpa using List.find?_some hfind, hw, rfl⟩
    · cases h

/-- A number that a port takes is the word placed on it, and fits the port. -/
theorem portNumber_number {bits k : Nat} {w : Word} (h : portNumber bits (.number k) = .ok w) :
    w = BitVec.ofNat 32 k ∧ w.toNat < 2 ^ bits := by
  rw [portNumber] at h
  split at h
  · next hlt =>
    obtain rfl := Except.ok.inj h
    exact ⟨rfl, Nat.lt_of_le_of_lt (BitVec.toNat_ofNat .. ▸ Nat.mod_le _ _) hlt⟩
  · cases h

/-- A number given to a field is the word placed on the field's port, and fits the port (R83). -/
theorem fieldOperand_number {f : Field} {k : Nat} {w : Word} (h : fieldOperand f (.number k) = .ok w) :
    w = BitVec.ofNat 32 k ∧ w.toNat < 2 ^ (portOf f).inputWidth := by
  cases hc : f.codec <;> simp only [fieldOperand, portOf, hc, FieldPort.inputWidth] at h ⊢ <;>
    exact portNumber_number h

/-- Settles O52: the operand's value goes to the port of the field of its name, where no other field of the family stands. -/
theorem assemblerOperandSetsItsFieldOnly : Obligations.AssemblerOperandSetsItsFieldOnly := by
  intro cfg fam n v x y h f hf
  obtain ⟨g, hg, w, rfl, hw, rfl⟩ := placeField_ok h
  have hapart := layoutOf_fieldsApart cfg fam
  refine ⟨fun hne => hapart.inputValue_setInput_of_ne hg hf (fun he => hne (he ▸ rfl)) w x, ?_⟩
  rintro hname k rfl
  obtain rfl := List.inj_on_of_nodup_map (layoutOf_names_nodup cfg fam) hf hg hname
  obtain ⟨rfl, hfit⟩ := fieldOperand_number hw
  exact inputValue_setInput_self (hapart.id_lt f hf) hfit x

/-- An operation with its operands left out has its own `op`. -/
theorem startInputs_op (cfg : Config) (i : Instr) : (startInputs cfg i).op = encodeOp i := by
  cases i <;> rfl

/-- An operation with its operands left out has 0 on every port it does not read. -/
theorem startInputs_eq_readInputs (cfg : Config) (i : Instr) :
    startInputs cfg i = { readInputs i (startInputs cfg i) with op := encodeOp i } := by
  cases i <;> simp [startInputs, readInputs, roleOf, defaultRecord, decodeInputs, Inputs.zero, decodeInstr]

/-- Settles O51: a line with no operand gives the inputs that the operation starts from, by its kind. -/
theorem assemblerDefaults : Obligations.AssemblerDefaults := by
  intro cfg i
  exact ⟨startInputs cfg i, rfl, startInputs_op cfg i, fun fam hrole => by rw [startInputs, hrole],
    fun fam hrole => by rw [startInputs, hrole]; rfl, fun hrole => by rw [startInputs, hrole],
    startInputs_eq_readInputs cfg i⟩

end Sys2Proof.Machine
end

section
/-! PROOFS. The default records (R82): every field with the code 0, but for the EM4x05 block count. -/

namespace Sys2Proof.Machine

/-- An encode whose fields all have a code gives the assembled register value, with status OK. -/
theorem encodeRegister_of_codes {cfg : Config} {x : Inputs} {l : Layout} (h : ∀ f ∈ l, ∃ c, codeOfInput cfg x f = some c) :
    encodeRegister cfg l x = okRegister (assemble cfg x l) := by
  have hmask : invalidMask cfg x l = 0 := BitVec.eq_of_getLsbD_eq fun k hk => by
    rw [BitVec.ofNat_eq_ofNat, BitVec.getLsbD_zero, ← Bool.not_eq_true, invalidMask_getLsbD cfg x l k hk]
    rintro ⟨f, hf, -, hnone⟩
    obtain ⟨c, hc⟩ := h f hf
    rw [hnone] at hc
    cases hc
  rw [encodeRegister, if_pos hmask]

/-- An encode whose fields all have the code 0 gives the register value 0. -/
theorem encodeRegister_of_zero_codes {cfg : Config} {x : Inputs} {l : Layout} (h : ∀ f ∈ l, codeOfInput cfg x f = some 0) :
    encodeRegister cfg l x = okRegister 0 := by
  rw [encodeRegister_of_codes fun f hf => ⟨0, h f hf⟩]
  congr 1
  induction l with
  | nil => rfl
  | cons f fs ih =>
    rw [assemble, h f List.mem_cons_self]
    simp [ih fun g hg => h g (List.mem_cons_of_mem _ hg)]

/-- The code of every field of a default record is 0 (R82), but for the biased block count, whose codes begin at 4. -/
theorem codeOfInput_defaultRecord {cfg : Config} {fam : Family} {f : Field} (hf : f ∈ layoutOf cfg fam)
    (hnb : f.codec ≠ .nblocks) : codeOfInput cfg (defaultRecord cfg fam) f = some 0 := by
  revert f
  cases fam <;> simp [layoutOf, t55x7Layout, t5555Layout, em4x05Layout, codeOfInput, defaultRecord, Inputs.zero] <;> decide

/-- The T55x7 and the T5555 default record encode to 0 (R82). -/
theorem encodeRegister_defaultRecord (cfg : Config) {fam : Family} (h : fam ≠ .em4x05) :
    encodeRegister cfg (layoutOf cfg fam) (defaultRecord cfg fam) = okRegister 0 :=
  encodeRegister_of_zero_codes fun f hf =>
    codeOfInput_defaultRecord hf fun hc => portOf_ne_nblocks h f hf (by simp only [portOf, hc])

/-- Of the parameters an encode over a layout reads `EM4X05_NB_MIN` only. -/
theorem encodeRegister_with_nbMin (cfg : Config) (l : Layout) (x : Inputs) :
    encodeRegister cfg l x = encodeRegister { Config.default with nbMin := cfg.nbMin } l x := by
  have hcode : codeOfInput cfg = codeOfInput { Config.default with nbMin := cfg.nbMin } := by
    funext x f
    simp only [codeOfInput, nbEnc]
  have hboth : invalidMask cfg x l = invalidMask { Config.default with nbMin := cfg.nbMin } x l
      ∧ assemble cfg x l = assemble { Config.default with nbMin := cfg.nbMin } x l := by
    induction l with
    | nil => exact ⟨rfl, rfl⟩
    | cons f fs ih => simp only [invalidMask, assemble, hcode, ih, and_self]
  rw [encodeRegister, encodeRegister, hboth.1, hboth.2]

/-- The EM4x05 default record encodes to the code of the least block count, in place (R82). -/
theorem encodeRegister_defaultRecord_em4x05 {cfg : Config} (h : cfg.legal = true) :
    encodeRegister cfg em4x05Layout (defaultRecord cfg .em4x05)
      = okRegister (if cfg.nbMin = 0 then 0x00010000 else 0x00014000) := by
  have hcases : ∀ n ≤ 1, encodeRegister { Config.default with nbMin := n } em4x05Layout
      (defaultRecord { Config.default with nbMin := n } .em4x05)
        = okRegister (if n = 0 then 0x00010000 else 0x00014000) := by decide
  exact (encodeRegister_with_nbMin cfg _ _).trans (hcases cfg.nbMin ((config_legal_iff cfg).1 h).1)

/-- The T55x7 default record with MANCHESTER, divisor 64 and AOR (the scenario of R82). -/
def manchesterRecord (cfg : Config) : Inputs :=
  { defaultRecord cfg .t55x7 with pMod := 8, pDiv := 64, pFlags := 1#16 <<< 4 }

/-- The scenario of R82: code 8 at bit 12, code 5 at bit 18, and the AOR flag at bit 9. -/
theorem encodeRegister_manchesterRecord {cfg : Config} (h : cfg.legal = true) :
    encodeRegister cfg t55x7Layout (manchesterRecord cfg) = okRegister 0x00148200 := by
  have hcases : ∀ n ≤ 1, encodeRegister { Config.default with nbMin := n } t55x7Layout (manchesterRecord Config.default)
      = okRegister 0x00148200 := by decide
  exact (encodeRegister_with_nbMin cfg _ _).trans (hcases cfg.nbMin ((config_legal_iff cfg).1 h).1)

/-- An operation performed on the inputs `x` with legal parameters adds the outputs that its rule gives for them. -/
theorem exec_of_evaluation {i : Instr} {s : State} {x : Inputs} {o : Outputs} (hlegal : s.config.legal = true)
    (h : evaluation i s.config x = o) :
    exec i { s with inp := x } = .next { s with inp := x, results := s.results ++ [o] } :=
  h ▸ exec_of_legal i (s := { s with inp := x }) hlegal

/-- Settles O45: the T55x7 and T5555 defaults have the code 0 in every field; the other two records are computed. -/
theorem defaultRecordsEncode : Obligations.DefaultRecordsEncode := by
  intro s hlegal
  have hnb : (BitVec.ofNat 32 s.config.nbMin).toNat = s.config.nbMin := by
    obtain ⟨hnb, -⟩ := (config_legal_iff _).1 hlegal
    rw [BitVec.toNat_ofNat]
    omega
  refine ⟨⟨_, rfl, ⟨rfl, rfl, rfl, rfl, rfl⟩, ?_, _, rfl, ?_⟩, ⟨_, rfl, ⟨rfl, rfl, rfl, rfl, rfl⟩, ?_⟩,
    ⟨_, rfl, ⟨rfl, hnb, rfl, rfl, rfl⟩, ?_⟩⟩
  · exact exec_of_evaluation hlegal (encodeRegister_defaultRecord s.config (fam := .t55x7) (by decide))
  · exact exec_of_evaluation hlegal (encodeRegister_manchesterRecord hlegal)
  · exact exec_of_evaluation hlegal (encodeRegister_defaultRecord s.config (fam := .t5555) (by decide))
  · exact exec_of_evaluation hlegal (encodeRegister_defaultRecord_em4x05 hlegal)

end Sys2Proof.Machine
end

section
/-! PROOFS. The codes of a field's reading: a value that a code reads as has that code (the other half of the per-field
inverse laws of R113, R153 and R183), and which codes of a register value are unrecognised (R202). -/

namespace Sys2Proof.Machine

-- The code tables, read from code to value.

theorem codeOf_map_swap {α β : Type} [DecidableEq β] (t : List (α × β)) (b : β) :
    codeOf (t.map Prod.swap) b = valueOf t b := by
  induction t with
  | nil => rfl
  | cons row rows ih => rw [List.map_cons, codeOf, valueOf, ih, Prod.fst_swap, Prod.snd_swap]

theorem valueOf_map_swap {α β : Type} [DecidableEq α] (t : List (α × β)) (a : α) :
    valueOf (t.map Prod.swap) a = codeOf t a := by
  induction t with
  | nil => rfl
  | cons row rows ih => rw [List.map_cons, codeOf, valueOf, ih, Prod.fst_swap, Prod.snd_swap]

/-- A table whose values are all different: the code of a row's value is the code the row was found by. -/
theorem codeOf_of_valueOf {α β : Type} [DecidableEq α] [DecidableEq β] {t : List (α × β)} (ht : (t.map Prod.fst).Nodup)
    {a : α} {b : β} (h : valueOf t b = some a) : codeOf t a = some b := by
  rw [← valueOf_map_swap]
  refine valueOf_of_codeOf ?_ (codeOf_map_swap t b ▸ h)
  rwa [List.map_map, show Prod.snd ∘ Prod.swap = (Prod.fst : α × β → α) from rfl]

/-- A table reads a code as the value whose row has the code. -/
theorem tableReading_known {w : Nat} {t : List (Word × BitVec w)} {c : BitVec w} {v : Word}
    (h : tableReading t c = .known v) : valueOf t c = some v := by
  unfold tableReading at h
  split at h
  · next v' hv =>
    cases h
    exact hv
  · cases h

/-- A modulation table reads a code as the symbol code of a symbol whose row has the code. -/
theorem modDec_known {w : Nat} {t : List (Modulation × BitVec w)} {c : BitVec w} {v : Word} (h : modDec t c = .known v) :
    ∃ m s, valueOf t c = some m ∧ codeOf symbolTable m = some s ∧ v = zext s := by
  unfold modDec at h
  split at h
  · next m hm =>
    split at h
    · next s hs =>
      cases h
      exact ⟨m, s, hm, hs, rfl⟩
    · cases h
  · cases h

/-- The symbol code that a modulation code reads as has that modulation code. -/
theorem modEnc_of_modDec {w : Nat} {t : List (Modulation × BitVec w)} (ht : (t.map Prod.fst).Nodup) {c : BitVec w}
    {s : BitVec 4} (h : modDec t c = .known (zext s)) : modEnc t s = some c := by
  obtain ⟨m, s', hm, hs', hzext⟩ := modDec_known h
  obtain rfl : s = s' := by rw [← setWidth_zext s (by decide), hzext, setWidth_zext s' (by decide)]
  rw [modEnc, valueOf_of_codeOf (by decide) hs']
  exact codeOf_of_valueOf ht hm

-- The computed codes.

/-- The divisor that a bit-rate code reads as has that code (R140, R141). -/
theorem rate6Enc_of_rate6Dec {c : BitVec 6} {d : Word} (h : rate6Dec c = .known d) : rate6Enc d = some c := by
  obtain rfl := Reading.known.inj h
  have hd : (BitVec.ofNat 32 (2 * c.toNat + 2)).toNat = 2 * c.toNat + 2 := by
    rw [BitVec.toNat_ofNat]
    omega
  rw [rate6Enc, hd, if_pos (by omega), Nat.add_sub_cancel, Nat.mul_div_cancel_left _ (by decide), BitVec.ofNat_toNat,
    BitVec.setWidth_eq]

/-- The count that a block-count code reads as has that code (R172, R173). -/
theorem nbEnc_of_nbDec {cfg : Config} {c : BitVec 4} {n : Word} (h : nbDec cfg c = .known n) :
    nbEnc cfg n = some c := by
  rw [nbDec] at h
  split at h
  · next hle =>
    obtain rfl := Reading.known.inj h
    have hn : (BitVec.ofNat 32 (c.toNat - 4)).toNat = c.toNat - 4 := by
      rw [BitVec.toNat_ofNat]
      omega
    rw [nbEnc, hn, if_pos (by omega), Nat.sub_add_cancel (by omega), BitVec.ofNat_toNat, BitVec.setWidth_eq]
  · cases h

-- The fields.

/-- A code that fits its width is the zero extension of its low bits. -/
theorem zext_setWidth {w : Nat} {c : Word} (h : c.toNat < 2 ^ w) : zext (c.setWidth w) = c := by
  refine BitVec.eq_of_toNat_eq ?_
  rw [zext, BitVec.toNat_setWidth, BitVec.toNat_setWidth, Nat.mod_eq_of_lt h, Nat.mod_eq_of_lt c.isLt]

/-- The value that a field's code reads as has that code (with legal parameters or not). -/
theorem codeOfInput_of_readingOf {cfg : Config} {x : Inputs} {f : Field} {c : Word} (hc : c.toNat < 2 ^ codecWidth f.codec)
    (h : readingOf cfg f c = .known (inputValue x f)) : codeOfInput cfg x f = some c := by
  have hmap : ∀ {w : Nat} {o : Option (BitVec w)}, c.toNat < 2 ^ w → o = some (c.setWidth w) → o.map zext = some c :=
    fun hlt ho => by rw [ho, Option.map_some, zext_setWidth hlt]
  cases hcodec : f.codec <;> simp only [readingOf, inputValue, codeOfInput, codecWidth, hcodec] at h hc ⊢
  case flag => rw [Reading.known.inj h]
  all_goals refine hmap hc ?_
  case maxblk =>
    obtain rfl := Reading.known.inj h
    exact if_pos (Nat.le_of_lt_succ hc)
  case psk => exact codeOf_of_valueOf (by decide) (tableReading_known h)
  case clock => exact codeOf_of_valueOf (by decide) (tableReading_known h)
  case modT55x7 => exact modEnc_of_modDec (by decide) h
  case modT5555 => exact modEnc_of_modDec (by decide) h
  case modEm4x05 => exact modEnc_of_modDec (by decide) h
  case rate6 => exact rate6Enc_of_rate6Dec h
  case nblocks => exact nbEnc_of_nbDec h

/-- A value that a field's code reads as fits the field's input port. -/
theorem known_lt_inputWidth {cfg : Config} {f : Field} {c v : Word} (hc : c.toNat < 2 ^ codecWidth f.codec)
    (h : readingOf cfg f c = .known v) : v.toNat < 2 ^ (portOf f).inputWidth := by
  have hmod : ∀ {w : Nat} {t : List (Modulation × BitVec w)} {c : BitVec w}, modDec t c = .known v → v.toNat < 2 ^ 4 :=
    fun h => by
      obtain ⟨_, s, -, -, rfl⟩ := modDec_known h
      exact zext_lt s
  cases hcodec : f.codec <;> simp only [readingOf, portOf, codecWidth, hcodec, FieldPort.inputWidth] at h hc ⊢
  case flag => exact Reading.known.inj h ▸ hc
  case modT55x7 | modT5555 | modEm4x05 => exact hmod h
  all_goals exact v.isLt

/-- An extracted field fits the width of its codes. -/
theorem extractField_lt {f : Field} (hw : f.width = codecWidth f.codec) (r : Word) :
    (extractField f r).toNat < 2 ^ codecWidth f.codec := by
  rw [extractField_eq_zext, ← hw]
  exact zext_lt _

-- The unrecognised codes.

/-- A reading that is not a value is a raw code. -/
theorem isUnknown_iff {rd : Reading} : Spec.isUnknown rd = true ↔ ∃ raw, rd = .unknown raw := by
  cases rd <;> simp [Spec.isUnknown]

/-- The codes of a codec that no value has (R68 to R74): those of the carriers, of two modulation tables, and of the block
counts below the least. -/
def unrecognizedCode (cfg : Config) (codec : Codec) (code : Nat) : Prop :=
  match codec with
  | .psk => code = 3
  | .modT55x7 => code ∉ [0, 1, 2, 3, 4, 5, 6, 7, 8, 16, 24]
  | .modEm4x05 => 9 ≤ code
  | .nblocks => code < 4 + cfg.nbMin
  | .flag | .maxblk | .modT5555 | .clock | .rate6 => False

/-- The block-count codes below the least count's are unrecognised (R173). -/
theorem isUnknown_nbDec (cfg : Config) (c : BitVec 4) :
    Spec.isUnknown (nbDec cfg c) = true ↔ c.toNat < 4 + cfg.nbMin := by
  rw [nbDec]
  split
  · next hle => simp [Spec.isUnknown, Nat.not_lt.2 hle]
  · next hlt => simp [Spec.isUnknown, Nat.not_le.1 hlt]

/-- A field of a register value reads as unrecognised exactly where its bits are an unrecognised code of its codec. -/
theorem isUnknown_readingOf {cfg : Config} {f : Field} (hw : f.width = codecWidth f.codec) (r : Word) :
    Spec.isUnknown (readingOf cfg f (extractField f r)) = true
      ↔ unrecognizedCode cfg f.codec (r.extractLsb' f.shift f.width).toNat := by
  have hpsk : ∀ c, Spec.isUnknown (pskDec c) = true ↔ c.toNat = 3 := by decide
  have h55 : ∀ c, Spec.isUnknown (mod55Dec c) = true ↔ c.toNat ∉ [0, 1, 2, 3, 4, 5, 6, 7, 8, 16, 24] := by decide
  have h5555 : ∀ c, Spec.isUnknown (mod5555Dec c) = true ↔ False := by decide
  have h4305 : ∀ c, Spec.isUnknown (mod4305Dec c) = true ↔ 9 ≤ c.toNat := by decide
  have hclk : ∀ c, Spec.isUnknown (clkDec c) = true ↔ False := by decide
  rw [← extractField_setWidth f r (by rw [hw]; cases f.codec <;> decide), hw]
  cases hc : f.codec <;> simp only [readingOf, unrecognizedCode, codecWidth, hc]
  case flag | maxblk | rate6 => exact iff_of_false Bool.false_ne_true id
  case psk => exact hpsk _
  case modT55x7 => exact h55 _
  case modT5555 => exact h5555 _
  case modEm4x05 => exact h4305 _
  case clock => exact hclk _
  case nblocks => exact isUnknown_nbDec cfg _

/-- The cause table of R202 on a family's decode: the field with that id reads as unrecognised. -/
theorem unrecognizedCause_iff (cfg : Config) (fam : Family) (r : Word) (k : Nat) :
    Spec.unrecognizedCause cfg (decodeInstr fam) r k ↔
      ∃ f ∈ layoutOf cfg fam, f.id = k ∧ Spec.isUnknown (readingOf cfg f (extractField f r)) = true := by
  have hcode : ∀ f ∈ layoutOf cfg fam, (f.id = k ∧ Spec.isUnknown (readingOf cfg f (extractField f r)) = true)
      ↔ (k = f.id ∧ unrecognizedCode cfg f.codec (r.extractLsb' f.shift f.width).toNat) := fun f hf =>
    and_congr eq_comm (isUnknown_readingOf (width_eq_codecWidth cfg fam f hf) r)
  rw [exists_congr fun f => and_congr_right (hcode f)]
  cases fam <;>
    simp [layoutOf, t55x7Layout, t5555Layout, em4x05Layout, decodeInstr, Spec.unrecognizedCause, unrecognizedCode]

-- The status of a decode, by the causes of UnrecognizedField.

/-- A decode with a cause of UnrecognizedField has that status (R202). -/
theorem decodeRegister_status_of_unrecognizedCause {cfg : Config} {fam : Family} {r : Word} {k : Nat}
    (h : Spec.unrecognizedCause cfg (decodeInstr fam) r k) :
    (decodeRegister cfg (layoutOf cfg fam) r).status = .unrecognizedField := by
  obtain ⟨f, hf, rfl, hunk⟩ := (unrecognizedCause_iff cfg fam r k).1 h
  have hbit := (decodeRegister_err cfg _ r ((layoutOf_fieldsApart cfg fam).id_lt f hf)).2 ⟨f, hf, rfl, isUnknown_iff.1 hunk⟩
  rw [decodeRegister_status]
  refine if_neg fun h0 => ?_
  rw [h0, BitVec.ofNat_eq_ofNat, BitVec.getLsbD_zero] at hbit
  cases hbit

/-- Where no cause of UnrecognizedField holds, a decode recognises every field (R202). -/
theorem known_of_not_unrecognizedCause {cfg : Config} {fam : Family} {r : Word}
    (h : ∀ k, ¬ Spec.unrecognizedCause cfg (decodeInstr fam) r k) :
    ∀ f ∈ layoutOf cfg fam, ∃ v, readingOf cfg f (extractField f r) = .known v := by
  intro f hf
  cases hrd : readingOf cfg f (extractField f r) with
  | known v => exact ⟨v, rfl⟩
  | unknown raw =>
    exact absurd ((unrecognizedCause_iff cfg fam r f.id).2 ⟨f, hf, rfl, isUnknown_iff.2 ⟨raw, hrd⟩⟩) (h f.id)

end Sys2Proof.Machine
end

section
/-! PROOFS. The re-encoding of a decode (R114, step 3 of R84): every decoded value placed on its input port gives each field
the code it had in the register value, and the codes with the residue are the value. -/

namespace Sys2Proof.Machine

-- A register value put together from its fields and its residue (R75, R77, R78).

/-- The residue takes each bit by itself. -/
theorem residueOf_or (l : Layout) (a b : Word) : residueOf l (a ||| b) = residueOf l a ||| residueOf l b :=
  BitVec.and_or_distrib_right

/-- The residue of a residue is the residue. -/
@[simp] theorem residueOf_residueOf (l : Layout) (r : Word) : residueOf l (residueOf l r) = residueOf l r := by
  rw [residueOf, residueOf, BitVec.and_assoc, BitVec.and_self]

/-- The bits of a register value in the fields have no residue. -/
theorem residueOf_and_fieldMask (l : Layout) (r : Word) : residueOf l (r &&& fieldMask l) = 0 := by
  rw [residueOf, BitVec.and_assoc]
  simp

/-- A field of a register value is extracted from the bits in the fields. -/
theorem extractField_and_fieldMask {l : Layout} {f : Field} (hf : f ∈ l) (r : Word) :
    extractField f (r &&& fieldMask l) = extractField f r := by
  refine BitVec.eq_of_getLsbD_eq fun i hi => ?_
  rw [extractField_getLsbD f _ i hi, extractField_getLsbD f _ i hi, BitVec.getLsbD_and]
  by_cases hj : f.shift + i < 32
  · by_cases hw : i < f.width
    · rw [(fieldMask_getLsbD l (f.shift + i) hj).2 ⟨f, hf, by omega, by omega⟩, Bool.and_true]
    · rw [decide_eq_false hw, Bool.false_and, Bool.false_and]
  · rw [BitVec.getLsbD_of_ge r _ (Nat.le_of_not_lt hj), Bool.false_and]

/-- The codes extracted from a register value, put together again with its residue, give the value. -/
theorem assemble_or_residueOf {cfg : Config} {x : Inputs} {l : Layout} (hl : Layout.wellFormed l = true) {r : Word}
    (h : ∀ f ∈ l, codeOfInput cfg x f = some (extractField f r)) : assemble cfg x l ||| residueOf l r = r := by
  have hfields : assemble cfg x l = r &&& fieldMask l :=
    assemble_extractField hl (residueOf_and_fieldMask l r) fun f hf => by rw [extractField_and_fieldMask hf, h f hf]
  rw [hfields, residueOf, ← BitVec.and_or_distrib_left, BitVec.or_not_self, BitVec.and_allOnes]

-- Every decoded value placed on its input port.

/-- Filling in the fields of a layout keeps `op`. -/
theorem fillInputs_op {o : Outputs} {l : Layout} {x y : Inputs} (h : fillInputs o l x = some y) : y.op = x.op := by
  induction l generalizing x with
  | nil => exact congrArg Inputs.op (Option.some.inj h).symm
  | cons f fs ih =>
    rw [fillInputs] at h
    split at h
    · rw [ih h, setInput_op]
    · cases h

/-- Filling in the fields of a layout leaves alone every input port that none of them stands on. -/
theorem inputPort_fillInputs_of_ne {o : Outputs} {l : Layout} {x y : Inputs} (h : fillInputs o l x = some y)
    {p : FieldPort} (hp : ∀ f ∈ l, portOf f ≠ p) : inputPort y p = inputPort x p := by
  induction l generalizing x with
  | nil => rw [Option.some.inj h]
  | cons f fs ih =>
    rw [fillInputs] at h
    split at h
    · rw [ih h fun g hg => hp g (List.mem_cons_of_mem _ hg), inputPort_setInput_of_ne (hp f List.mem_cons_self)]
    · cases h

/-- Where every field of a decode is known and fits its input port, filling them in gives each field its decoded value. -/
theorem fillInputs_of_known {o : Outputs} {l : Layout} (hl : FieldsApart l)
    (h : ∀ f ∈ l, ∃ v, fieldReading o f = .known v ∧ v.toNat < 2 ^ (portOf f).inputWidth) (x : Inputs) :
    ∃ y, fillInputs o l x = some y ∧ ∀ f ∈ l, fieldReading o f = .known (inputValue y f) := by
  induction l generalizing x with
  | nil => exact ⟨x, rfl, fun f hf => by cases hf⟩
  | cons f fs ih =>
    obtain ⟨v, hv, hfit⟩ := h f List.mem_cons_self
    obtain ⟨y, hy, hknown⟩ := ih hl.tail (fun g hg => h g (List.mem_cons_of_mem _ hg)) (setInput f v x)
    have hfirst : inputValue y f = v := by
      rw [inputValue_eq_inputPort, inputPort_fillInputs_of_ne hy hl.portOf_ne_head, ← inputValue_eq_inputPort,
        inputValue_setInput_self (hl.id_lt f List.mem_cons_self) hfit]
    refine ⟨y, by rw [fillInputs, hv]; exact hy, fun g hg => ?_⟩
    obtain rfl | hg := List.mem_cons.1 hg
    · rw [hfirst, hv]
    · exact hknown g hg

-- The re-encoding of a decode.

/-- All that a re-encoding that is not refused gives: inputs with the family's encode on `op`. -/
theorem reencode_op {cfg : Config} {fam : Family} {o : Outputs} {x : Inputs} (h : reencode cfg fam o = .ok x) :
    x.op = encodeOp (encodeInstr fam) := by
  rw [reencode] at h
  split at h
  · split at h
    · next hfill =>
      obtain rfl := Except.ok.inj h
      exact fillInputs_op hfill
    · cases h
  · cases h

/-- Where a decode recognises every field, its outputs re-encode, with the code of each field as it stood in the register
value. -/
theorem reencode_decodeRegister {cfg : Config} {fam : Family} {r : Word}
    (h : ∀ f ∈ layoutOf cfg fam, ∃ v, readingOf cfg f (extractField f r) = .known v) :
    ∃ x, reencode cfg fam (decodeRegister cfg (layoutOf cfg fam) r) = .ok x
      ∧ ∀ f ∈ layoutOf cfg fam, codeOfInput cfg x f = some (extractField f r) := by
  have hapart := layoutOf_fieldsApart cfg fam
  have hlt : ∀ f ∈ layoutOf cfg fam, (extractField f r).toNat < 2 ^ codecWidth f.codec := fun f hf =>
    extractField_lt (hapart.width_eq f hf) r
  have hreading := fun f hf => fieldReading_decodeRegister (cfg := cfg) (f := f) hapart r hf
  obtain ⟨x, hfill, hx⟩ := fillInputs_of_known (o := decodeRegister cfg (layoutOf cfg fam) r) hapart (fun f hf => by
    obtain ⟨v, hv⟩ := h f hf
    exact ⟨v, (hreading f hf).trans hv, known_lt_inputWidth (hlt f hf) hv⟩)
    { Inputs.zero with op := encodeOp (encodeInstr fam) }
  refine ⟨x, by rw [reencode, decodeRecord_decodeRegister, hfill], fun f hf => ?_⟩
  exact codeOfInput_of_readingOf (hlt f hf) ((hreading f hf).symm.trans (hx f hf))

end Sys2Proof.Machine
end

section
/-! PROOFS. The read-modify-write of R84: the caller's two evaluations, the edits between them, and how it ends. -/

namespace Sys2Proof.Machine

-- The caller's two evaluations.

/-- The function of R26 on the inputs of a family's decode. -/
theorem tcrc_decodeInputs (cfg : Config) (fam : Family) (r : Word) :
    tcrc cfg (decodeInputs fam r) = decodeRegister cfg (layoutOf cfg fam) r := by
  rw [tcrc, decodeInputs, decodeOp_encodeOp, evaluation_decodeInstr]

/-- The function of R26 on inputs with a family's encode on `op`. -/
theorem tcrc_of_encodeOp {x : Inputs} {fam : Family} (h : x.op = encodeOp (encodeInstr fam)) (cfg : Config) :
    tcrc cfg x = encodeRegister cfg (layoutOf cfg fam) x := by
  rw [tcrc, h, decodeOp_encodeOp, evaluation_encodeInstr]

/-- The state after one evaluation issued ahead of the rest of the program. -/
def afterIssue (x : Inputs) (s : State) : State := { s with inp := x, results := s.results ++ [tcrc s.config x] }

@[simp] theorem afterIssue_config (x : Inputs) (s : State) : (afterIssue x s).config = s.config := rfl
@[simp] theorem afterIssue_program (x : Inputs) (s : State) : (afterIssue x s).program = s.program := rfl
@[simp] theorem afterIssue_results (x : Inputs) (s : State) :
    (afterIssue x s).results = s.results ++ [tcrc s.config x] := rfl

/-- With legal parameters an evaluation that is issued completes, and its outputs are the function of R26. -/
theorem issueRead_of_legal {s : State} (h : s.config.legal = true) (x : Inputs) :
    issueRead x s = .next (afterIssue x s, tcrc s.config x) := by
  have hissue : issue x s = .next (afterIssue x s) :=
    stepComputesTheEvaluation { s with program := x :: s.program } x s.program h rfl
  rw [issueRead, hissue]
  simp only [readOutputs_append (afterIssue_results x s)]

/-- The inversion of an evaluation issued and read: if it answers, the parameters are legal. -/
theorem issueRead_next {s t : State} {x : Inputs} {o : Outputs} (h : issueRead x s = .next (t, o)) :
    s.config.legal = true ∧ t = afterIssue x s ∧ o = tcrc s.config x := by
  have hlegal : s.config.legal = true := by
    rw [issueRead] at h
    split at h
    · next u hissue => exact (step_next (s := { s with program := x :: s.program }) rfl hissue).1
    · cases h
    · cases h
  rw [issueRead_of_legal hlegal] at h
  cases h
  exact ⟨hlegal, rfl, rfl⟩

-- The edits.

/-- An edit of a family's fields keeps `op`. -/
theorem placeOperand_encodeInstr_op {cfg : Config} {fam : Family} {p : AsmName × AsmValue} {x y : Inputs}
    (h : placeOperand cfg (encodeInstr fam) p x = .ok y) : y.op = x.op := by
  obtain ⟨name, v⟩ := p
  cases name with
  | reg => simp [placeOperand] at h
  | field n =>
    obtain ⟨f, -, w, -, -, rfl⟩ := placeField_ok (show placeField cfg fam n v x = .ok y by simpa [placeOperand] using h)
    exact setInput_op f w x

/-- A list of edits of a family's fields keeps `op`. -/
theorem placeOperands_encodeInstr_op {cfg : Config} {fam : Family} {ps : List (AsmName × AsmValue)} {x y : Inputs}
    (h : placeOperands cfg (encodeInstr fam) ps x = .ok y) : y.op = x.op := by
  induction ps generalizing x with
  | nil => rw [Except.ok.inj h]
  | cons p ps ih =>
    rw [placeOperands] at h
    split at h
    · next hp => rw [ih h, placeOperand_encodeInstr_op hp]
    · cases h

/-- No edit is placed. -/
theorem placeOperands_nil (cfg : Config) (i : Instr) (x : Inputs) : placeOperands cfg i [] x = .ok x := rfl

-- The read-modify-write.

/-- A read-modify-write whose decode has not the status OK stops there (R84, step 2). -/
theorem rmw_stopped {s : State} (hlegal : s.config.legal = true) {fam : Family} {r : Word}
    (h : (decodeRegister s.config (layoutOf s.config fam) r).status ≠ .ok) (edits : List (AsmName × AsmValue)) :
    rmw fam r edits s = .next (afterIssue (decodeInputs fam r) s,
      .stopped (decodeRegister s.config (layoutOf s.config fam) r).status
        (decodeRegister s.config (layoutOf s.config fam) r).err) := by
  rw [rmw, issueRead_of_legal hlegal, tcrc_decodeInputs]
  exact if_neg h

/-- A read-modify-write whose decode re-encodes, whose edits are placed and whose encode has status OK gives the encoded
register value with the residue of the old one (R84, step 4). -/
theorem rmw_completes {s : State} (hlegal : s.config.legal = true) {fam : Family} {r : Word}
    {edits : List (AsmName × AsmValue)} {x y : Inputs} {w : Word}
    (hdec : (decodeRegister s.config (layoutOf s.config fam) r).status = .ok)
    (hx : reencode s.config fam (decodeRegister s.config (layoutOf s.config fam) r) = .ok x)
    (hy : placeOperands s.config (encodeInstr fam) edits x = .ok y)
    (henc : encodeRegister s.config (layoutOf s.config fam) y = okRegister w) :
    rmw fam r edits s = .next (afterIssue y (afterIssue (decodeInputs fam r) s),
      .value (w ||| residueOf (layoutOf s.config fam) r)) := by
  have hop : y.op = encodeOp (encodeInstr fam) := (placeOperands_encodeInstr_op hy).trans (reencode_op hx)
  rw [rmw, issueRead_of_legal hlegal, tcrc_decodeInputs]
  simp only [hdec, hx, hy, if_true]
  rw [issueRead_of_legal (by exact hlegal), afterIssue_config, tcrc_of_encodeOp hop, henc]
  simp [okRegister, Outputs.zero, decodeRegister_qResidue]

/-- The inversion of a read-modify-write that gives a register value: it is what an accepted record of the family encodes
to, with the residue of the old value. -/
theorem rmw_value {fam : Family} {r v : Word} {edits : List (AsmName × AsmValue)} {s t : State}
    (h : rmw fam r edits s = .next (t, .value v)) :
    ∃ y, v = assemble s.config y (layoutOf s.config fam) ||| residueOf (layoutOf s.config fam) r := by
  rw [rmw] at h
  split at h
  · cases h
  · cases h
  · next s1 o1 hdec =>
    obtain ⟨hlegal, rfl, rfl⟩ := issueRead_next hdec
    split at h
    · next hok =>
      split at h
      · cases h
      · next x hx =>
        split at h
        · cases h
        · next y hy =>
          have hop : y.op = encodeOp (encodeInstr fam) := (placeOperands_encodeInstr_op hy).trans (reencode_op hx)
          split at h
          · cases h
          · cases h
          · next s2 o2 henc =>
            obtain ⟨-, rfl, rfl⟩ := issueRead_next henc
            split at h
            · next hok2 =>
              cases h
              rw [afterIssue_config, tcrc_of_encodeOp hop] at hok2 ⊢
              exact ⟨y, by rw [(encodeRegister_of_status_ok hok2).2, tcrc_decodeInputs, decodeRegister_qResidue]⟩
            · cases h
    · cases h

/-- Settles O49: the encoded part of the value has no residue, and the residue put back is its own residue. -/
theorem rmwKeepsUnassignedBits : Obligations.RmwKeepsUnassignedBits := by
  intro fam r v edits s t h
  obtain ⟨y, rfl⟩ := rmw_value h
  rw [residueOf_or, residueOf_assemble (codesFit_layoutOf s.config fam y), residueOf_residueOf]
  exact BitVec.zero_or

/-- Settles O50: a decode that recognises every field re-encodes to the fields' codes, which with the residue are the value;
a decode with a cause of UnrecognizedField is not OK. -/
theorem rmwOfNothingOrStopped : Obligations.RmwOfNothingOrStopped := by
  intro fam r s hlegal
  refine ⟨fun hnone => ?_, fun k edits hcause => ?_⟩
  · have hknown := known_of_not_unrecognizedCause hnone
    obtain ⟨x, hx, hcodes⟩ := reencode_decodeRegister hknown
    have hrmw := rmw_completes hlegal (decodeRegister_status_ok hknown) hx (placeOperands_nil s.config _ x)
      (encodeRegister_of_codes fun f hf => ⟨_, hcodes f hf⟩)
    rw [assemble_or_residueOf (layoutOf_wellFormed hlegal fam) hcodes] at hrmw
    exact ⟨_, hrmw, by simp, rfl⟩
  · have hstatus := decodeRegister_status_of_unrecognizedCause hcause
    have hrmw := rmw_stopped hlegal (by rw [hstatus]; decide) edits
    rw [hstatus] at hrmw
    exact ⟨_, _, hrmw, by simp, rfl⟩

end Sys2Proof.Machine
end

section
/-! PROOFS. The outputs of a decode told by its ports (R24, R78): what an error mask of 0 says, and when the outputs of a decode
are the outputs that a rule writes out. -/

namespace Sys2Proof.Machine

/-- A decode has an empty error mask exactly where it recognises every field (R202). -/
theorem decodeRegister_err_eq_zero_iff {cfg : Config} {l : Layout} (hl : FieldsApart l) (r : Word) :
    (decodeRegister cfg l r).err = 0 ↔ ∀ f ∈ l, ∃ v, readingOf cfg f (extractField f r) = .known v := by
  refine ⟨fun h0 f hf => ?_, fun hknown => ?_⟩
  · cases hrd : readingOf cfg f (extractField f r) with
    | known v => exact ⟨v, rfl⟩
    | unknown raw =>
      have hbit := (decodeRegister_err cfg l r (hl.id_lt f hf)).2 ⟨f, hf, rfl, raw, hrd⟩
      rw [h0, BitVec.ofNat_eq_ofNat, BitVec.getLsbD_zero] at hbit
      cases hbit
  · by_contra h0
    have hstatus := decodeRegister_status_ok hknown
    rw [decodeRegister_status, if_neg h0] at hstatus
    cases hstatus

/-- A decode has status OK exactly where it recognises every field (R205). -/
theorem decodeRegister_status_ok_iff {cfg : Config} {l : Layout} (hl : FieldsApart l) (r : Word) :
    (decodeRegister cfg l r).status = .ok ↔ ∀ f ∈ l, ∃ v, readingOf cfg f (extractField f r) = .known v := by
  rw [← decodeRegister_err_eq_zero_iff hl, decodeRegister_status]
  split
  · next h0 => exact iff_of_true rfl h0
  · next h0 => exact iff_of_false (by decide) h0

/-- Two sets of outputs that agree on the status, the error mask, the register value, the residue and every field's port are
one. -/
theorem outputs_ext_of_ports {o q : Outputs} (hstatus : o.status = q.status) (herr : o.err = q.err)
    (hreg : o.regOut = q.regOut) (hres : o.qResidue = q.qResidue) (hports : ∀ p, portValue o p = portValue q p) : o = q := by
  have hmod : o.qMod = q.qMod := by
    rw [← setWidth_zext o.qMod (by decide), ← setWidth_zext q.qMod (by decide)]
    exact congrArg (BitVec.setWidth 5) (hports .mod)
  have hflags : o.qFlags = q.qFlags := BitVec.eq_of_getLsbD_eq fun k _ => by
    have hzero : o.qFlags.getLsbD k = false ↔ q.qFlags.getLsbD k = false := by
      rw [← flagIn_eq_zero_iff, ← flagIn_eq_zero_iff]
      exact iff_of_eq (congrArg (· = 0) (hports (.flag k)))
    rwa [← Bool.not_eq_true, ← Bool.not_eq_true, not_iff_not, ← Bool.eq_iff_iff] at hzero
  have hmaxblk : o.qMaxblk = q.qMaxblk := hports .maxblk
  have hpsk : o.qPsk = q.qPsk := hports .psk
  have hdiv : o.qDiv = q.qDiv := hports .div
  have hnblocks : o.qNblocks = q.qNblocks := hports .nblocks
  cases o
  cases q
  rw [Outputs.mk.injEq]
  exact ⟨hstatus, herr, hreg, hmod, hdiv, hpsk, hmaxblk, hnblocks, hflags, hres⟩

/-- The outputs of a decode are the outputs with its error mask, the status and the residue that go with it, each field's value
or raw code on the field's port, and 0 elsewhere (R24, R25, R202, R205). -/
theorem decodeRegister_eq_of_ports {cfg : Config} {l : Layout} (hl : FieldsApart l) {r : Word} {o : Outputs}
    (hstatus : o.status = if o.err = 0 then .ok else .unrecognizedField) (herr : (decodeRegister cfg l r).err = o.err)
    (hreg : o.regOut = 0) (hres : o.qResidue = residueOf l r)
    (hfields : ∀ f ∈ l, outputValue o f = Spec.carried (readingOf cfg f (extractField f r)))
    (hrest : ∀ p, (∀ f ∈ l, portOf f ≠ p) → portValue o p = 0) : decodeRegister cfg l r = o := by
  refine outputs_ext_of_ports ?_ herr ?_ ?_ fun p => ?_
  · rw [decodeRegister_status, herr, hstatus]
  · rw [decodeRegister_regOut, hreg]
  · rw [decodeRegister_qResidue, hres]
  · by_cases hp : ∀ f ∈ l, portOf f ≠ p
    · rw [portValue_decodeRegister_of_ne hl r hp, hrest p hp]
    · obtain ⟨f, hf, rfl⟩ : ∃ f ∈ l, portOf f = p := by simpa using hp
      rw [← outputValue_eq_portValue, ← outputValue_eq_portValue, outputValue_decodeRegister hl r hf, hfields f hf]

end Sys2Proof.Machine
end

section
/-! PROOFS. The two round trips of a family (R113, R114, R153, R183), over its layout: a record encoded and decoded, and a
register value decoded and encoded; and the obligations of the T55x7 round trips. -/

namespace Sys2Proof.Machine

-- A record encoded, then decoded.

/-- The decode outputs that hold a parameter record: every field's input value on its output port (R28, R64). -/
def recordOutputs (x : Inputs) : Outputs :=
  { Outputs.zero with
    qMod := x.pMod.setWidth 5, qDiv := x.pDiv, qPsk := x.pPsk, qMaxblk := x.pMaxblk, qNblocks := x.pNblocks,
    qFlags := x.pFlags }

/-- The outputs that hold a record carry on each port what the record's input port carries. -/
theorem portValue_recordOutputs (x : Inputs) (p : FieldPort) : portValue (recordOutputs x) p = inputPort x p := by
  cases p with
  | mod =>
    have hwiden : ∀ m : BitVec 4, zext (m.setWidth 5) = zext m := by decide
    exact hwiden x.pMod
  | _ => rfl

/-- Every bit of a family's flag mask is the port of a boolean field of the family (R64). -/
theorem exists_portOf_eq_flag {cfg : Config} {fam : Family} {k : Nat} (h : (flagMask fam).getLsbD k = true) :
    ∃ f ∈ layoutOf cfg fam, portOf f = .flag k := by
  have hk : k < 16 := BitVec.lt_of_getLsbD h
  revert h
  cases fam <;> interval_cases k <;> simp [layoutOf, t55x7Layout, t5555Layout, em4x05Layout, flagMask, portOf]

/-- An encode reads no port but its fields' own: every other port of the inputs it reads carries 0. -/
theorem inputPort_readInputs_of_ne {cfg : Config} {fam : Family} {p : FieldPort}
    (hp : ∀ f ∈ layoutOf cfg fam, portOf f ≠ p) (x : Inputs) : inputPort (readInputs (encodeInstr fam) x) p = 0 := by
  cases p with
  | flag k =>
    have hmask : (flagMask fam).getLsbD k = false := by
      by_contra hbit
      obtain ⟨f, hf, hport⟩ := exists_portOf_eq_flag (cfg := cfg) (Bool.eq_true_of_not_eq_false hbit)
      exact hp f hf hport
    rw [inputPort, readInputs_encodeInstr_pFlags, flagIn_eq_zero_iff, BitVec.getLsbD_and, hmask, Bool.and_false]
  | maxblk =>
    cases fam with
    | em4x05 => rfl
    | _ => simp [layoutOf, t55x7Layout, t5555Layout, portOf] at hp
  | nblocks =>
    cases fam with
    | em4x05 => simp [layoutOf, em4x05Layout, portOf] at hp
    | _ => rfl
  | _ => cases fam <;> simp [layoutOf, t55x7Layout, t5555Layout, em4x05Layout, portOf] at hp

/-- The decode of the register value of an accepted record gives the record back, on the ports its encode reads. -/
theorem decodeRegister_assemble {cfg : Config} (hcfg : cfg.legal = true) {fam : Family} {x : Inputs}
    (h : ∀ f ∈ layoutOf cfg fam, ∃ c, codeOfInput cfg x f = some c) :
    decodeRegister cfg (layoutOf cfg fam) (assemble cfg x (layoutOf cfg fam))
      = recordOutputs (readInputs (encodeInstr fam) x) := by
  have hapart := layoutOf_fieldsApart cfg fam
  have hfit := codesFit_layoutOf cfg fam x
  have hreading : ∀ f ∈ layoutOf cfg fam,
      readingOf cfg f (extractField f (assemble cfg x (layoutOf cfg fam))) = .known (inputValue x f) := fun f hf => by
    obtain ⟨c, hc⟩ := h f hf
    rw [extractField_assemble (layoutOf_wellFormed hcfg fam) hfit hf hc, readingOf_codeOfInput hc]
  have herr := (decodeRegister_err_eq_zero_iff hapart _).2 fun f hf => ⟨_, hreading f hf⟩
  refine decodeRegister_eq_of_ports hapart rfl herr rfl (residueOf_assemble hfit).symm (fun f hf => ?_) fun p hp => ?_
  · rw [hreading f hf, Spec.carried, outputValue_eq_portValue, portValue_recordOutputs, ← inputValue_eq_inputPort,
      inputValue_readInputs x hf]
  · rw [portValue_recordOutputs, inputPort_readInputs_of_ne hp]

/-- A family's encode of a record whose fields all have a code completes with status OK, and the family's decode of its
register value completes with the record. -/
theorem exec_decode_of_exec_encode {s : State} (hlegal : s.config.legal = true) {fam : Family}
    (h : ∀ f ∈ layoutOf s.config fam, ∃ c, codeOfInput s.config s.inp f = some c) :
    ∃ r, exec (encodeInstr fam) s = .next { s with results := s.results ++ [okRegister r] }
      ∧ exec (decodeInstr fam) { s with inp := decodeInputs fam r } = .next { s with
          inp := decodeInputs fam r,
          results := s.results ++ [recordOutputs (readInputs (encodeInstr fam) s.inp)] } := by
  refine ⟨assemble s.config s.inp (layoutOf s.config fam), ?_, exec_of_evaluation hlegal ?_⟩
  · rw [exec_of_legal _ hlegal, evaluation_encodeInstr, encodeRegister_of_codes h]
  · rw [evaluation_decodeInstr, decodeInputs, decodeRegister_assemble hlegal h]

-- A register value decoded, then encoded.

/-- Filling in the fields of a decode gives nothing where a field is unknown. -/
theorem fillInputs_of_unknown {o : Outputs} {l : Layout} {f : Field} (hf : f ∈ l) {raw : Word}
    (h : fieldReading o f = .unknown raw) (x : Inputs) : fillInputs o l x = none := by
  induction l generalizing x with
  | nil => cases hf
  | cons g gs ih =>
    rw [fillInputs]
    obtain rfl | hgs := List.mem_cons.1 hf
    · rw [h]
    · cases fieldReading o g with
      | known v => exact ih hgs _
      | unknown raw => rfl

/-- The outputs of a decode that does not recognise every field are refused as an encode input (R114). -/
theorem reencode_of_status_ne_ok {cfg : Config} {fam : Family} {r : Word}
    (h : (decodeRegister cfg (layoutOf cfg fam) r).status ≠ .ok) :
    reencode cfg fam (decodeRegister cfg (layoutOf cfg fam) r) = .error .unrecognisedField := by
  have hapart := layoutOf_fieldsApart cfg fam
  obtain ⟨f, hf, hunknown⟩ : ∃ f ∈ layoutOf cfg fam, ¬ ∃ v, readingOf cfg f (extractField f r) = .known v := by
    simpa only [not_forall, exists_prop] using (decodeRegister_status_ok_iff hapart r).not.1 h
  have hreading := fieldReading_decodeRegister (cfg := cfg) hapart r hf
  cases hrd : readingOf cfg f (extractField f r) with
  | known v => exact absurd ⟨v, hrd⟩ hunknown
  | unknown raw => rw [reencode, decodeRecord_decodeRegister, fillInputs_of_unknown hf (hreading.trans hrd)]

/-- The outputs of a decode with status OK re-encode, and a family's encode of them completes with the register value, where
the value has no residue (R114, R153, R183). -/
theorem exec_encode_reencode {s : State} (hlegal : s.config.legal = true) {fam : Family} {r : Word}
    (hres : residueOf (layoutOf s.config fam) r = 0)
    (hok : (decodeRegister s.config (layoutOf s.config fam) r).status = .ok) :
    ∃ x, reencode s.config fam (decodeRegister s.config (layoutOf s.config fam) r) = .ok x
      ∧ exec (encodeInstr fam) { s with inp := x } = .next { s with inp := x, results := s.results ++ [okRegister r] } := by
  obtain ⟨x, hx, hcodes⟩ :=
    reencode_decodeRegister ((decodeRegister_status_ok_iff (layoutOf_fieldsApart s.config fam) r).1 hok)
  refine ⟨x, hx, exec_of_evaluation hlegal ?_⟩
  rw [evaluation_encodeInstr, encodeRegister_of_codes fun f hf => ⟨_, hcodes f hf⟩,
    assemble_extractField (layoutOf_wellFormed hlegal fam) hres hcodes]

-- The T55x7.

/-- The table of a code gives it to exactly the values that have a row. -/
theorem exists_codeOf_iff {α β : Type} [DecidableEq α] (t : List (α × β)) (a : α) :
    (∃ b, codeOf t a = some b) ↔ a ∈ t.map Prod.fst := by
  induction t with
  | nil => simp [codeOf]
  | cons row rows ih =>
    rw [codeOf, List.map_cons, List.mem_cons, ← ih]
    split
    · next h => exact iff_of_true ⟨_, rfl⟩ (.inl h.symm)
    · next h => exact (or_iff_right (Ne.symm h)).symm

/-- Every field of a legal T55x7 record has a code (R65). -/
theorem exists_code_of_legalT55x7 (cfg : Config) {x : Inputs} (h : legalT55x7 x) :
    ∀ f ∈ t55x7Layout, ∃ c, codeOfInput cfg x f = some c := by
  obtain ⟨hmaxblk, hpsk, hmod, hdiv, -⟩ := h
  have hmaxblk' : blk3Enc x.pMaxblk = some (x.pMaxblk.setWidth 3) := if_pos hmaxblk
  obtain ⟨psk, hpsk'⟩ : ∃ c, pskEnc x.pPsk = some c := (exists_codeOf_iff _ _).2 (by simpa [pskTable] using hpsk)
  obtain ⟨mod, hmod'⟩ : ∃ c, mod55Enc x.pMod = some c := by
    have hall : ∀ m : BitVec 4, m.toNat ≤ 10 → ∃ c, mod55Enc m = some c := by decide
    exact hall _ hmod
  obtain ⟨div, hdiv'⟩ : ∃ c, clkEnc x.pDiv = some c := (exists_codeOf_iff _ _).2 (by simpa [clockTable] using hdiv)
  simp [t55x7Layout, codeOfInput, hmaxblk', hpsk', hmod', hdiv']

/-- A mask that leaves nothing outside it keeps the value. -/
theorem and_eq_self_of_and_not_eq_zero {w : Nat} {b m : BitVec w} (h : b &&& ~~~m = 0) : b &&& m = b := by
  calc b &&& m = b &&& m ||| b &&& ~~~m := by rw [h]; exact BitVec.or_zero.symm
    _ = b := by rw [← BitVec.and_or_distrib_left, BitVec.or_not_self, BitVec.and_allOnes]

/-- A legal T55x7 record is what its encode reads of it, so its outputs hold all of it. -/
theorem recordOutputs_of_legalT55x7 {x : Inputs} (h : legalT55x7 x) :
    recordOutputs (readInputs .t55x7Enc x) = { Outputs.zero with
      qMod := x.pMod.setWidth 5, qDiv := x.pDiv, qPsk := x.pPsk, qMaxblk := x.pMaxblk, qFlags := x.pFlags } := by
  obtain ⟨-, -, -, -, hflags⟩ := h
  have hkept : x.pFlags &&& flagMask .t55x7 = x.pFlags := and_eq_self_of_and_not_eq_zero hflags
  simp only [recordOutputs, readInputs, roleOf, hkept]
  rfl

/-- Settles O38: every field of a legal record has a code, each field of the assembled register value reads as the record's
value, and no port or bit of the record is outside what the encode reads. -/
theorem t55x7DecodeInvertsEncode : Obligations.T55x7DecodeInvertsEncode := by
  intro s hlegal hrecord
  obtain ⟨r, henc, hdec⟩ :=
    exec_decode_of_exec_encode (fam := .t55x7) hlegal (exists_code_of_legalT55x7 s.config hrecord)
  refine ⟨r, henc, ?_⟩
  rw [← recordOutputs_of_legalT55x7 hrecord]
  exact hdec

/-- The residue of a T55x7 register value, with the mask written out (R75). -/
theorem residueOf_t55x7Layout (r : Word) : residueOf t55x7Layout r = r &&& 0xFFE00106 := by
  rw [residueOf, show ~~~fieldMask t55x7Layout = 0xFFE00106 by decide]

/-- Settles O39: a decode with status OK recognises every field, so its outputs re-encode to the same codes, which are all of
a value with no residue; a decode with another status has an unknown field. -/
theorem t55x7EncodeInvertsDecode : Obligations.T55x7EncodeInvertsDecode := by
  intro s t o hmask hexec hread
  have hlegal := (exec_next hexec).1
  obtain rfl : o = decodeRegister s.config (layoutOf s.config .t55x7) s.inp.regIn := readOutputs_exec hexec hread
  have hres : residueOf (layoutOf s.config .t55x7) s.inp.regIn = 0 := (residueOf_t55x7Layout _).trans hmask
  exact ⟨exec_encode_reencode hlegal hres, fun hunk => reencode_of_status_ne_ok (by rw [hunk]; decide)⟩

end Sys2Proof.Machine
end

section
/-! PROOFS. The code tables and the helper functions that turn port values into field codes and back (R68 to R72, R100 to R106,
R142, R143, R170, R171), each as the spec lists it. -/

namespace Sys2Proof.Machine

/-- Settles O31: the table lists the eight rows, no two of them with one divisor or one code, so a lookup in one direction
inverts the lookup in the other. -/
theorem clockDivisorTable : Obligations.ClockDivisorTable := by
  have hinverse : ∀ (d : Word) (c : BitVec 3), clkEnc d = some c ↔ clkDec c = .known d := fun d c =>
    ⟨fun h => by rw [clkDec, tableReading, valueOf_of_codeOf (by decide) h],
      fun h => codeOf_of_valueOf (by decide) (tableReading_known h)⟩
  refine ⟨fun d => ?_, by decide, fun d e c hd he => ?_, hinverse⟩
  · simp only [clkEnc, codeOf, clockTable, eq_comm (b := d)]
  · exact Reading.known.inj (((hinverse d c).1 hd).symm.trans ((hinverse e c).1 he))

/-- Settles O32: the carrier table lists three rows, the max-block check is on the whole value, and a max-block code is read
as itself. -/
theorem pskAndMaxBlockCodes : Obligations.PskAndMaxBlockCodes := by
  refine ⟨fun p => ?_, by decide, fun v hv => ?_, fun v hv => if_neg (Nat.not_le.2 hv), fun cfg f code hf => ?_⟩
  · simp only [pskEnc, codeOf, pskTable, eq_comm (b := p)]
  · rw [blk3Enc, if_pos hv, BitVec.setWidth_eq_extractLsb' (by decide)]
  · rw [readingOf, hf]

/-- Settles O33: symbol codes and field codes are at most five bits wide, so each of the six functions is its list of values. -/
theorem modulationCodes : Obligations.ModulationCodes :=
  ⟨by decide, by decide, by decide, by decide, by decide, by decide⟩

end Sys2Proof.Machine
end

section
/-! PROOFS. An encode and a decode over a layout in the terms of the pseudocode: the marks of the invalid and of the
unrecognised fields, and the flags bus bit by bit (R64, R77, R78, R201, R202). -/

namespace Sys2Proof.Machine

-- Marks.

/-- A mark sets its own bit, where the field is bad. -/
theorem markIf_getLsbD (k : Nat) (bad : Bool) (j : Nat) :
    (Spec.markIf k bad).getLsbD j = (decide (k < 16) && decide (k = j) && bad) := by
  cases bad with
  | false => rw [Spec.markIf, Bool.and_false]; exact BitVec.getLsbD_zero
  | true => rw [Spec.markIf, Bool.and_true]; exact BitVec.getLsbD_twoPow k j

/-- A flag of the bus is a mark of the register bit it is taken from. -/
theorem flagFrom_getLsbD (r : Word) (b k j : Nat) :
    (Spec.flagFrom r b k).getLsbD j = (decide (k < 16) && decide (k = j) && r.getLsbD b) :=
  markIf_getLsbD k (r.getLsbD b) j

@[simp] theorem markIf_false (k : Nat) : Spec.markIf k false = 0 := rfl

/-- The mark of a field is 0 exactly where the field is not bad. -/
theorem markIf_eq_zero_iff {k : Nat} (hk : k < 16) {bad : Bool} : Spec.markIf k bad = 0#16 ↔ bad = false := by
  refine ⟨fun h => ?_, fun h => by rw [h]; rfl⟩
  have hbit := markIf_getLsbD k bad k
  rw [h] at hbit
  simpa [hk] using hbit.symm

-- An encode.

@[simp] theorem invalidMask_nil (cfg : Config) (x : Inputs) : invalidMask cfg x [] = 0 := rfl

/-- The mask of an encode marks its first field where its input has no code, and then the rest (R201). -/
theorem invalidMask_cons (cfg : Config) (x : Inputs) (f : Field) (fs : Layout) :
    invalidMask cfg x (f :: fs) = Spec.markIf f.id (codeOfInput cfg x f).isNone ||| invalidMask cfg x fs := by
  rw [invalidMask]
  cases codeOfInput cfg x f with
  | some c => exact BitVec.zero_or.symm
  | none => rfl

/-- The code of a boolean field is its bit of the flags bus (R64). -/
theorem flagIn_eq_flag (x : Inputs) (k : Nat) : flagIn x.pFlags k = Spec.flag x k := flagIn_eq_ite x.pFlags k

-- A decode.

/-- The marks of the fields that a decode does not recognise (R202). -/
def unrecognizedMask (cfg : Config) (r : Word) : Layout → BitVec 16
  | [] => 0
  | f :: fs => Spec.markIf f.id (Spec.isUnknown (readingOf cfg f (extractField f r))) ||| unrecognizedMask cfg r fs

/-- The error mask of a decode is the marks of its unrecognised fields (R202, R205). -/
theorem decodeRegister_err_eq_unrecognizedMask (cfg : Config) (l : Layout) (r : Word) :
    (decodeRegister cfg l r).err = unrecognizedMask cfg r l := by
  refine BitVec.eq_of_getLsbD_eq fun k hk => ?_
  have hmask : (unrecognizedMask cfg r l).getLsbD k = true ↔
      ∃ f ∈ l, f.id = k ∧ Spec.isUnknown (readingOf cfg f (extractField f r)) = true := by
    induction l with
    | nil => simp [unrecognizedMask]
    | cons f fs ih =>
      have hid : f.id < 16 ∧ f.id = k ↔ f.id = k := and_iff_right_of_imp fun h => h ▸ hk
      simp [unrecognizedMask, ih, markIf_getLsbD, hid]
  rw [Bool.eq_iff_iff, decodeRegister_err cfg l r hk, hmask]
  simp only [isUnknown_iff]

@[simp] theorem isUnknown_known (v : Word) : Spec.isUnknown (.known v) = false := rfl

@[simp] theorem carried_known (v : Word) : Spec.carried (.known v) = v := rfl

/-- A boolean field's output port carries the field's register bit, where its bit of the flags bus is that bit (R64). -/
theorem outputValue_of_flag {f : Field} (hcodec : f.codec = .flag) (hw : f.width = 1) (cfg : Config) {r : Word} {o : Outputs}
    (h : o.qFlags.getLsbD f.id = r.getLsbD f.shift) :
    outputValue o f = Spec.carried (readingOf cfg f (extractField f r)) := by
  simp only [outputValue, readingOf, hcodec, Spec.carried]
  rw [flagIn_eq_ite, h]
  refine BitVec.eq_of_getLsbD_eq fun i hi => ?_
  rw [extractField_getLsbD f r i hi, hw]
  obtain rfl | hpos := Nat.eq_zero_or_pos i
  · cases r.getLsbD f.shift <;> simp
  · cases r.getLsbD f.shift <;> simp [hpos.ne', BitVec.getLsbD_one]

end Sys2Proof.Machine
end

section
/-! PROOFS. The obligations of the three T55x7 operations, each against its pseudocode (R110 to R112). -/

namespace Sys2Proof.Machine

/-- The mask of a T55x7 encode: the four fields that can be invalid (R110). -/
theorem invalidMask_t55x7Layout (cfg : Config) (x : Inputs) :
    invalidMask cfg x t55x7Layout = Spec.markIf 3 (blk3Enc x.pMaxblk).isNone ||| Spec.markIf 5 (pskEnc x.pPsk).isNone
      ||| Spec.markIf 6 (mod55Enc x.pMod).isNone ||| Spec.markIf 8 (clkEnc x.pDiv).isNone := by
  simp [t55x7Layout, invalidMask_cons, codeOfInput, BitVec.or_assoc]

/-- The register value of a T55x7 encode: each code at its written-out bit position (R110). -/
theorem assemble_t55x7Layout {cfg : Config} {x : Inputs} {maxblk : BitVec 3} {psk : BitVec 2} {mod : BitVec 5}
    {div : BitVec 3} (hmaxblk : blk3Enc x.pMaxblk = some maxblk) (hpsk : pskEnc x.pPsk = some psk)
    (hmod : mod55Enc x.pMod = some mod) (hdiv : clkEnc x.pDiv = some div) :
    assemble cfg x t55x7Layout = Spec.flag x 0 <<< 0 ||| Spec.flag x 1 <<< 3 ||| Spec.flag x 2 <<< 4 ||| zext maxblk <<< 5
      ||| Spec.flag x 4 <<< 9 ||| zext psk <<< 10 ||| zext mod <<< 12 ||| Spec.flag x 7 <<< 17 ||| zext div <<< 18 := by
  simp [t55x7Layout, assemble, codeOfInput, flagIn_eq_flag, hmaxblk, hpsk, hmod, hdiv, BitVec.or_assoc]

/-- The four fields of a T55x7 encode that can be invalid are not, exactly where the mask is 0 (R110). -/
theorem invalidMask_t55x7Layout_eq_zero_iff (cfg : Config) (x : Inputs) :
    invalidMask cfg x t55x7Layout = 0 ↔
      (∃ maxblk, blk3Enc x.pMaxblk = some maxblk) ∧ (∃ psk, pskEnc x.pPsk = some psk)
        ∧ (∃ mod, mod55Enc x.pMod = some mod) ∧ ∃ div, clkEnc x.pDiv = some div := by
  simp [invalidMask_t55x7Layout, BitVec.or_eq_zero_iff, markIf_eq_zero_iff, Option.isSome_iff_exists, and_assoc]

/-- An encode over the T55x7 layout gives the outputs of the pseudocode of R110. -/
theorem encodeRegister_t55x7Layout (cfg : Config) (x : Inputs) :
    encodeRegister cfg t55x7Layout x = Spec.t55x7Enc x := by
  have hvalid := invalidMask_t55x7Layout_eq_zero_iff cfg x
  obtain ⟨h0, henc⟩ | ⟨h0, henc⟩ := encodeRegister_cases cfg t55x7Layout x
  · obtain ⟨⟨maxblk, hmaxblk⟩, ⟨psk, hpsk⟩, ⟨mod, hmod⟩, div, hdiv⟩ := hvalid.1 h0
    rw [henc, assemble_t55x7Layout hmaxblk hpsk hmod hdiv, Spec.t55x7Enc, hmaxblk, hpsk, hmod, hdiv]
    rfl
  · rw [henc, invalidMask_t55x7Layout]
    unfold Spec.t55x7Enc
    split
    · next maxblk psk mod div hmaxblk hpsk hmod hdiv =>
      exact absurd (hvalid.2 ⟨⟨_, hmaxblk⟩, ⟨_, hpsk⟩, ⟨_, hmod⟩, _, hdiv⟩) h0
    · rfl

/-- Settles O14: the encode over the layout is the pseudocode. -/
theorem t55x7EncodeResult : Obligations.T55x7EncodeResult := by
  intro s hlegal
  rw [exec_of_legal _ hlegal, ← encodeRegister_t55x7Layout s.config]
  rfl

/-- The flags bus of the pseudocode of R111, bit by bit. -/
theorem t55x7Dec_qFlags_getLsbD (r : Word) (k : Nat) :
    (Spec.t55x7Dec r).qFlags.getLsbD k = (decide (0 = k) && r.getLsbD 0 || decide (1 = k) && r.getLsbD 3
      || decide (2 = k) && r.getLsbD 4 || decide (4 = k) && r.getLsbD 9 || decide (7 = k) && r.getLsbD 17) := by
  simp [Spec.t55x7Dec, flagFrom_getLsbD]

/-- The error mask of a T55x7 decode: the two fields that can be unrecognised (R111). -/
theorem decodeRegister_t55x7Layout_err (cfg : Config) (r : Word) :
    (decodeRegister cfg t55x7Layout r).err = (Spec.t55x7Dec r).err := by
  have hclk : ∀ c, Spec.isUnknown (clkDec c) = false := by decide
  rw [decodeRegister_err_eq_unrecognizedMask]
  simp [t55x7Layout, unrecognizedMask, readingOf, Spec.t55x7Dec, extractField_eq_zext, setWidth_zext, hclk]

/-- Each field's port carries in the outputs of the pseudocode of R111 what the decode over the layout reads. -/
theorem outputValue_t55x7Dec (cfg : Config) (r : Word) :
    ∀ f ∈ t55x7Layout, outputValue (Spec.t55x7Dec r) f = Spec.carried (readingOf cfg f (extractField f r)) := by
  intro f hf
  by_cases hcodec : f.codec = .flag
  · have hw : f.width = 1 := by rw [width_eq_codecWidth cfg .t55x7 f hf, hcodec, codecWidth]
    have hbit : (Spec.t55x7Dec r).qFlags.getLsbD f.id = r.getLsbD f.shift := by
      rw [t55x7Dec_qFlags_getLsbD]
      revert f
      simp [t55x7Layout]
    exact outputValue_of_flag hcodec hw cfg hbit
  · have hmod : ∀ c, zext ((Spec.carried (mod55Dec c)).setWidth 5) = Spec.carried (mod55Dec c) := by decide
    revert f
    simp [t55x7Layout, outputValue, readingOf, Spec.t55x7Dec, extractField_eq_zext, setWidth_zext, hmod]

/-- A decode over the T55x7 layout gives the outputs of the pseudocode of R111. -/
theorem decodeRegister_t55x7Layout (cfg : Config) (r : Word) :
    decodeRegister cfg t55x7Layout r = Spec.t55x7Dec r := by
  refine decodeRegister_eq_of_ports (layoutOf_fieldsApart cfg .t55x7) rfl (decodeRegister_t55x7Layout_err cfg r) rfl
    (residueOf_t55x7Layout r).symm (outputValue_t55x7Dec cfg r) fun p hp => ?_
  cases p with
  | flag k =>
    have hne : 0 ≠ k ∧ 1 ≠ k ∧ 2 ≠ k ∧ 4 ≠ k ∧ 7 ≠ k := by simpa [layoutOf, t55x7Layout, portOf] using hp
    rw [portValue, flagIn_eq_zero_iff, t55x7Dec_qFlags_getLsbD]
    simp [hne]
  | nblocks => rfl
  | _ => simp [layoutOf, t55x7Layout, portOf] at hp

/-- Settles O15: the decode over the layout is the pseudocode. -/
theorem t55x7DecodeResult : Obligations.T55x7DecodeResult := by
  intro s hlegal
  rw [exec_of_legal _ hlegal, ← decodeRegister_t55x7Layout s.config]
  rfl

/-- Settles O16: the code, or the error bit of the BITRATE field. -/
theorem clockBitResult : Obligations.ClockBitResult := by
  intro s hlegal
  have hout : t55x7ClockBit s.inp = Spec.t55x7Clkbit s.inp := by
    rw [t55x7ClockBit, Spec.t55x7Clkbit]
    cases clkEnc s.inp.pDiv <;> rfl
  rw [exec_of_legal _ hlegal, ← hout]
  rfl

end Sys2Proof.Machine
end

section
/-! PROOFS. The T5555 round trips (R153), over the family's layout and for all legal positions of the two movable flags. -/

namespace Sys2Proof.Machine

/-- Every field of a legal T5555 record has a code (R66). -/
theorem exists_code_of_legalT5555 (cfg : Config) {x : Inputs} (h : legalT5555 x) :
    ∀ f ∈ t5555Layout cfg, ∃ c, codeOfInput cfg x f = some c := by
  obtain ⟨hmaxblk, hpsk, hmod, hdiv, -⟩ := h
  have hmaxblk' : blk3Enc x.pMaxblk = some (x.pMaxblk.setWidth 3) := if_pos hmaxblk
  obtain ⟨mod, hmod'⟩ : ∃ c, mod5555Enc x.pMod = some c := by
    have hall : ∀ m : BitVec 4, m.toNat ≤ 5 ∨ m = 8 ∨ m = 9 → ∃ c, mod5555Enc m = some c := by decide
    exact hall _ hmod
  obtain ⟨psk, hpsk'⟩ : ∃ c, pskEnc x.pPsk = some c := (exists_codeOf_iff _ _).2 (by simpa [pskTable] using hpsk)
  obtain ⟨div, hdiv'⟩ : ∃ c, rate6Enc x.pDiv = some c := ⟨_, if_pos hdiv⟩
  simp [t5555Layout, codeOfInput, hmaxblk', hmod', hpsk', hdiv']

/-- A legal T5555 record is what its encode reads of it, so its outputs hold all of it. -/
theorem recordOutputs_of_legalT5555 {x : Inputs} (h : legalT5555 x) :
    recordOutputs (readInputs .t5555Enc x) = { Outputs.zero with
      qMod := x.pMod.setWidth 5, qDiv := x.pDiv, qPsk := x.pPsk, qMaxblk := x.pMaxblk, qFlags := x.pFlags } := by
  obtain ⟨-, -, -, -, hflags⟩ := h
  have hkept : x.pFlags &&& flagMask .t5555 = x.pFlags := and_eq_self_of_and_not_eq_zero hflags
  simp only [recordOutputs, readInputs, roleOf, hkept]
  rfl

/-- A T5555 decode of a register value whose carrier code is not 3 recognises every field (R151, R202). -/
theorem decodeRegister_t5555_status_ok (cfg : Config) {r : Word} (h : r.extractLsb' 8 2 ≠ 3) :
    (decodeRegister cfg (layoutOf cfg .t5555) r).status = .ok :=
  decodeRegister_status_ok <| known_of_not_unrecognizedCause fun _ hcause => h (BitVec.eq_of_toNat_eq hcause.2)

/-- Settles O40: a legal record has a code in every field, and decoding the assembled value gives all of the record back; a
register value whose one fallible code is recognised decodes with status OK, and having no residue it is the value assembled
from its own codes. -/
theorem t5555RoundTrips : Obligations.T5555RoundTrips := by
  refine ⟨fun s hlegal hrecord => ?_, fun s hlegal hmask hpsk => ?_⟩
  · obtain ⟨r, henc, hdec⟩ :=
      exec_decode_of_exec_encode (fam := .t5555) hlegal (exists_code_of_legalT5555 s.config hrecord)
    refine ⟨r, henc, ?_⟩
    rw [← recordOutputs_of_legalT5555 hrecord]
    exact hdec
  · obtain ⟨x, hx, henc⟩ :=
      exec_encode_reencode (fam := .t5555) hlegal hmask (decodeRegister_t5555_status_ok s.config hpsk)
    exact ⟨_, x, exec_of_legal .t5555Dec hlegal, hx, henc⟩

end Sys2Proof.Machine
end

section
/-! PROOFS. The computed bit-rate code (R140, R141): its divisors and no other, and the two directions as one equation. -/

namespace Sys2Proof.Machine

/-- A divisor has the bit-rate code `c` exactly where it is `2c + 2`, as a number and with no wrap (R140). -/
theorem rate6Enc_eq_some_iff (d : Word) (c : BitVec 6) : rate6Enc d = some c ↔ d.toNat = 2 * c.toNat + 2 := by
  rw [rate6Enc]
  split
  · rw [Option.some_inj, ← BitVec.toNat_inj, BitVec.toNat_ofNat]
    omega
  · exact iff_of_false (by simp) (by omega)

/-- The divisors with no bit-rate code: the odd ones, those below 2 and those above 128 (R140). -/
theorem rate6Enc_eq_none_iff (d : Word) : rate6Enc d = none ↔ d.toNat % 2 = 1 ∨ d.toNat < 2 ∨ 128 < d.toNat := by
  rw [rate6Enc]
  split
  · exact iff_of_false (by simp) (by omega)
  · exact iff_of_true rfl (by omega)

theorem two_mul_zext_add_two_toNat (c : BitVec 6) : (2 * zext c + 2).toNat = 2 * c.toNat + 2 := by
  rw [zext]
  bv_omega

/-- A bit-rate code `c` reads as the divisor `2c + 2` (R141). -/
theorem rate6Dec_eq (c : BitVec 6) : rate6Dec c = .known (2 * zext c + 2) :=
  congrArg Reading.known (BitVec.eq_of_toNat_eq (by
    rw [two_mul_zext_add_two_toNat, BitVec.toNat_ofNat]
    omega))

/-- Bit 0 of a word says whether its number is odd. -/
theorem getLsbD_zero_eq (d : Word) : d.getLsbD 0 = decide (d.toNat % 2 = 1) := by
  rw [BitVec.getLsbD, Nat.testBit_zero]

/-- Settles O34: both directions are the equation `d = 2c + 2`, whose divisors are the even ones from 2 to 128. -/
theorem bitRateCodes : Obligations.BitRateCodes := by
  refine ⟨fun d heven hlo hhi => ?_, fun d hbad => ?_, rate6Dec_eq, fun c => ?_, fun d c h => ?_⟩
  · rw [getLsbD_zero_eq, decide_eq_false_iff_not] at heven
    obtain ⟨c, hc⟩ : ∃ c, rate6Enc d = some c := ⟨_, if_pos (by omega)⟩
    exact ⟨c, hc, ((rate6Enc_eq_some_iff d c).1 hc).symm⟩
  · rwa [rate6Enc_eq_none_iff, ← decide_eq_true_iff (p := d.toNat % 2 = 1), ← getLsbD_zero_eq]
  · rw [rate6Enc_eq_some_iff, two_mul_zext_add_two_toNat]
  · rw [rate6Dec_eq]
    refine congrArg Reading.known (BitVec.eq_of_toNat_eq ?_)
    rw [two_mul_zext_add_two_toNat, (rate6Enc_eq_some_iff d c).1 h]

end Sys2Proof.Machine
end

section
/-! PROOFS. The obligations of the two T5555 operations, each against its pseudocode (R150, R151), and the bit-rate field of
the two (R152). -/

namespace Sys2Proof.Machine

-- The encode.

/-- The mask of a T5555 encode: the four fields that can be invalid (R150). -/
theorem invalidMask_t5555Layout (cfg : Config) (x : Inputs) :
    invalidMask cfg x (t5555Layout cfg) = Spec.markIf 1 (blk3Enc x.pMaxblk).isNone
      ||| Spec.markIf 2 (mod5555Enc x.pMod).isNone ||| Spec.markIf 4 (pskEnc x.pPsk).isNone
      ||| Spec.markIf 7 (rate6Enc x.pDiv).isNone := by
  simp [t5555Layout, invalidMask_cons, codeOfInput, BitVec.or_assoc]

/-- The register value of a T5555 encode: each code at its written-out bit position (R150). -/
theorem assemble_t5555Layout {cfg : Config} {x : Inputs} {maxblk : BitVec 3} {mod : BitVec 3} {psk : BitVec 2}
    {div : BitVec 6} (hmaxblk : blk3Enc x.pMaxblk = some maxblk) (hmod : mod5555Enc x.pMod = some mod)
    (hpsk : pskEnc x.pPsk = some psk) (hdiv : rate6Enc x.pDiv = some div) :
    assemble cfg x (t5555Layout cfg) = Spec.flag x 0 <<< 0 ||| zext maxblk <<< 1 ||| zext mod <<< 4 ||| Spec.flag x 3 <<< 7
      ||| zext psk <<< 8 ||| Spec.flag x 5 <<< 10 ||| Spec.flag x 6 <<< 11 ||| zext div <<< 12
      ||| Spec.flag x 8 <<< cfg.fwBit ||| Spec.flag x 9 <<< cfg.psBit := by
  simp [t5555Layout, assemble, codeOfInput, flagIn_eq_flag, hmaxblk, hmod, hpsk, hdiv, BitVec.or_assoc]

/-- The four fields of a T5555 encode that can be invalid are not, exactly where the mask is 0 (R150). -/
theorem invalidMask_t5555Layout_eq_zero_iff (cfg : Config) (x : Inputs) :
    invalidMask cfg x (t5555Layout cfg) = 0 ↔
      (∃ maxblk, blk3Enc x.pMaxblk = some maxblk) ∧ (∃ mod, mod5555Enc x.pMod = some mod)
        ∧ (∃ psk, pskEnc x.pPsk = some psk) ∧ ∃ div, rate6Enc x.pDiv = some div := by
  simp [invalidMask_t5555Layout, BitVec.or_eq_zero_iff, markIf_eq_zero_iff, Option.isSome_iff_exists, and_assoc]

/-- An encode over the T5555 layout gives the outputs of the pseudocode of R150. -/
theorem encodeRegister_t5555Layout (cfg : Config) (x : Inputs) :
    encodeRegister cfg (t5555Layout cfg) x = Spec.t5555Enc cfg x := by
  have hvalid := invalidMask_t5555Layout_eq_zero_iff cfg x
  obtain ⟨h0, henc⟩ | ⟨h0, henc⟩ := encodeRegister_cases cfg (t5555Layout cfg) x
  · obtain ⟨⟨maxblk, hmaxblk⟩, ⟨mod, hmod⟩, ⟨psk, hpsk⟩, div, hdiv⟩ := hvalid.1 h0
    rw [henc, assemble_t5555Layout hmaxblk hmod hpsk hdiv, Spec.t5555Enc, hmaxblk, hmod, hpsk, hdiv]
    rfl
  · rw [henc, invalidMask_t5555Layout]
    unfold Spec.t5555Enc
    split
    · next maxblk mod psk div hmaxblk hmod hpsk hdiv =>
      exact absurd (hvalid.2 ⟨⟨_, hmaxblk⟩, ⟨_, hmod⟩, ⟨_, hpsk⟩, _, hdiv⟩) h0
    · rfl

/-- Settles O17: the encode over the layout is the pseudocode. -/
theorem t5555EncodeResult : Obligations.T5555EncodeResult := by
  intro s hlegal
  rw [exec_of_legal _ hlegal, ← encodeRegister_t5555Layout s.config]
  rfl

-- The decode.

/-- The flags bus of the pseudocode of R151, bit by bit. -/
theorem t5555Dec_qFlags_getLsbD (cfg : Config) (r : Word) (k : Nat) :
    (Spec.t5555Dec cfg r).qFlags.getLsbD k = (decide (0 = k) && r.getLsbD 0 || decide (3 = k) && r.getLsbD 7
      || decide (5 = k) && r.getLsbD 10 || decide (6 = k) && r.getLsbD 11 || decide (8 = k) && r.getLsbD cfg.fwBit
      || decide (9 = k) && r.getLsbD cfg.psBit) := by
  simp [Spec.t5555Dec, flagFrom_getLsbD]

/-- The error mask of a T5555 decode: the one field that can be unrecognised (R151). -/
theorem decodeRegister_t5555Layout_err (cfg : Config) (r : Word) :
    (decodeRegister cfg (t5555Layout cfg) r).err = (Spec.t5555Dec cfg r).err := by
  have hmod : ∀ c, Spec.isUnknown (mod5555Dec c) = false := by decide
  rw [decodeRegister_err_eq_unrecognizedMask]
  simp [t5555Layout, unrecognizedMask, readingOf, Spec.t5555Dec, rate6Dec_eq, extractField_eq_zext, setWidth_zext, hmod]

/-- Each field's port carries in the outputs of the pseudocode of R151 what the decode over the layout reads. -/
theorem outputValue_t5555Dec (cfg : Config) (r : Word) :
    ∀ f ∈ t5555Layout cfg, outputValue (Spec.t5555Dec cfg r) f = Spec.carried (readingOf cfg f (extractField f r)) := by
  intro f hf
  by_cases hcodec : f.codec = .flag
  · have hw : f.width = 1 := by rw [width_eq_codecWidth cfg .t5555 f hf, hcodec, codecWidth]
    have hbit : (Spec.t5555Dec cfg r).qFlags.getLsbD f.id = r.getLsbD f.shift := by
      rw [t5555Dec_qFlags_getLsbD]
      revert f
      simp [t5555Layout]
    exact outputValue_of_flag hcodec hw cfg hbit
  · have hmod : ∀ c, zext ((Spec.carried (mod5555Dec c)).setWidth 5) = Spec.carried (mod5555Dec c) := by decide
    revert f
    simp [t5555Layout, outputValue, readingOf, Spec.t5555Dec, extractField_eq_zext, setWidth_zext, hmod]

/-- A decode over the T5555 layout gives the outputs of the pseudocode of R151. -/
theorem decodeRegister_t5555Layout (cfg : Config) (r : Word) :
    decodeRegister cfg (t5555Layout cfg) r = Spec.t5555Dec cfg r := by
  have hres : (Spec.t5555Dec cfg r).qResidue = residueOf (t5555Layout cfg) r := by
    rw [residueOf, fieldMask_t5555Layout, Spec.t5555Dec]
  refine decodeRegister_eq_of_ports (layoutOf_fieldsApart cfg .t5555) rfl (decodeRegister_t5555Layout_err cfg r) rfl
    hres (outputValue_t5555Dec cfg r) fun p hp => ?_
  cases p with
  | flag k =>
    have hne : 0 ≠ k ∧ 3 ≠ k ∧ 5 ≠ k ∧ 6 ≠ k ∧ 8 ≠ k ∧ 9 ≠ k := by simpa [layoutOf, t5555Layout, portOf] using hp
    rw [portValue, flagIn_eq_zero_iff, t5555Dec_qFlags_getLsbD]
    simp [hne]
  | nblocks => rfl
  | _ => simp [layoutOf, t5555Layout, portOf] at hp

/-- Settles O18: the decode over the layout is the pseudocode. -/
theorem t5555DecodeResult : Obligations.T5555DecodeResult := by
  intro s hlegal
  rw [exec_of_legal _ hlegal, ← decodeRegister_t5555Layout s.config]
  rfl

-- The bit-rate field.

/-- The bit-rate error bit of a T5555 encode is set exactly where the divisor has no code (R150, R152). -/
theorem encodeRegister_t5555Layout_err_seven (cfg : Config) (x : Inputs) :
    (encodeRegister cfg (t5555Layout cfg) x).err.getLsbD 7 = true ↔ Spec.badRate x := by
  rw [encodeRegister_err, invalidMask_t5555Layout, Spec.badRate, ← rate6Enc_eq_none_iff]
  simp only [BitVec.getLsbD_or, markIf_getLsbD]
  simp

/-- An encode with an error bit set has status INVALID_FIELD (R201). -/
theorem encodeRegister_status_of_err {cfg : Config} {l : Layout} {x : Inputs} {k : Nat}
    (h : (encodeRegister cfg l x).err.getLsbD k = true) : (encodeRegister cfg l x).status = .invalidField := by
  obtain ⟨-, henc⟩ | ⟨-, henc⟩ := encodeRegister_cases cfg l x
  · rw [henc, show (okRegister (assemble cfg x l)).err = 0#16 from rfl, BitVec.getLsbD_zero] at h
    cases h
  · rw [henc]
    rfl

/-- Settles O44: the encode marks the field exactly where the divisor has no code, and the decode marks the carrier field
only and reads the code `c` as `2c + 2`. -/
theorem t5555BitRateAsymmetry : Obligations.T5555BitRateAsymmetry := by
  refine ⟨fun s t o hexec hread => ?_, fun s t o hexec hread => ?_⟩
  · obtain rfl : o = encodeRegister s.config (t5555Layout s.config) s.inp := readOutputs_exec hexec hread
    have hbit := encodeRegister_t5555Layout_err_seven s.config s.inp
    exact ⟨hbit, fun hbad => encodeRegister_status_of_err (hbit.2 hbad)⟩
  · obtain rfl : o = decodeRegister s.config (t5555Layout s.config) s.inp.regIn := readOutputs_exec hexec hread
    rw [decodeRegister_t5555Layout]
    refine ⟨?_, by rw [Spec.t5555Dec, rate6Dec_eq, carried_known]⟩
    rw [Spec.t5555Dec, markIf_getLsbD]
    rfl

end Sys2Proof.Machine
end

section
/-! PROOFS. The biased block count (R172, R173), and the EM4x05 round trips (R183) over the family's layout. -/

namespace Sys2Proof.Machine

-- The block count.

/-- A legal count has the code 4 above it, as a number: the greatest, 11, has the code 15, so nothing wraps (R172). -/
theorem exists_nbEnc_of_legal {cfg : Config} {n : Word} (h : cfg.nbMin ≤ n.toNat ∧ n.toNat ≤ 11) :
    ∃ c, nbEnc cfg n = some c ∧ c.toNat = n.toNat + 4 := by
  refine ⟨_, if_pos h, ?_⟩
  rw [BitVec.toNat_ofNat]
  omega

/-- Settles O35: the encode checks the count as a number, and the decode takes 4 off a code that is at least 4. -/
theorem blockCountCodes : Obligations.BlockCountCodes := by
  refine fun cfg _ => ⟨fun n => exists_nbEnc_of_legal, fun n hbad => if_neg (by omega), fun c hc => ?_,
    fun c hc => if_neg (by omega)⟩
  rw [nbDec, if_pos hc, zext]
  congr 1
  bv_omega

-- The round trips.

/-- Every field of a legal EM4x05 record has a code (R67). -/
theorem exists_code_of_legalEm4x05 {cfg : Config} {x : Inputs} (h : legalEm4x05 cfg x) :
    ∀ f ∈ em4x05Layout, ∃ c, codeOfInput cfg x f = some c := by
  obtain ⟨hdiv, hmod, hpsk, hnb, -⟩ := h
  obtain ⟨div, hdiv'⟩ : ∃ c, rate6Enc x.pDiv = some c := ⟨_, if_pos hdiv⟩
  obtain ⟨mod, hmod'⟩ : ∃ c, mod4305Enc x.pMod = some c := by
    have hall : ∀ m : BitVec 4, m.toNat ≤ 5 ∨ m = 8 ∨ m = 9 ∨ m = 11 → ∃ c, mod4305Enc m = some c := by decide
    exact hall _ hmod
  obtain ⟨psk, hpsk'⟩ : ∃ c, pskEnc x.pPsk = some c := (exists_codeOf_iff _ _).2 (by simpa [pskTable] using hpsk)
  obtain ⟨nb, hnb', -⟩ := exists_nbEnc_of_legal hnb
  simp [em4x05Layout, codeOfInput, hdiv', hmod', hpsk', hnb']

/-- A legal EM4x05 record is what its encode reads of it, so its outputs hold all of it. -/
theorem recordOutputs_of_legalEm4x05 {cfg : Config} {x : Inputs} (h : legalEm4x05 cfg x) :
    recordOutputs (readInputs .em4x05Enc x) = { Outputs.zero with
      qMod := x.pMod.setWidth 5, qDiv := x.pDiv, qPsk := x.pPsk, qNblocks := x.pNblocks, qFlags := x.pFlags } := by
  obtain ⟨-, -, -, -, hflags⟩ := h
  have hkept : x.pFlags &&& flagMask .em4x05 = x.pFlags := and_eq_self_of_and_not_eq_zero hflags
  simp only [recordOutputs, readInputs, roleOf, hkept]
  rfl

/-- The residue of an EM4x05 register value, with the mask written out (R75). -/
theorem residueOf_em4x05Layout (r : Word) : residueOf em4x05Layout r = r &&& 0xFE003000 := by
  rw [residueOf, show ~~~fieldMask em4x05Layout = 0xFE003000 by decide]

/-- Settles O41: a legal record has a code in every field, and decoding the assembled value gives all of the record back; a
decode with status OK re-encodes to the same codes, which are all of a value with no residue. -/
theorem em4x05RoundTrips : Obligations.Em4x05RoundTrips := by
  refine ⟨fun s hlegal hrecord => ?_, fun s t o hmask hexec hread hok => ?_⟩
  · obtain ⟨r, henc, hdec⟩ :=
      exec_decode_of_exec_encode (fam := .em4x05) hlegal (exists_code_of_legalEm4x05 hrecord)
    refine ⟨r, henc, ?_⟩
    rw [← recordOutputs_of_legalEm4x05 hrecord]
    exact hdec
  · have hlegal := (exec_next hexec).1
    obtain rfl : o = decodeRegister s.config (layoutOf s.config .em4x05) s.inp.regIn := readOutputs_exec hexec hread
    exact exec_encode_reencode hlegal ((residueOf_em4x05Layout _).trans hmask) hok

end Sys2Proof.Machine
end

section
/-! PROOFS. The obligations of the two EM4x05 operations, each against its pseudocode (R180, R181). -/

namespace Sys2Proof.Machine

-- The encode.

/-- The mask of an EM4x05 encode: the four fields that can be invalid (R180). -/
theorem invalidMask_em4x05Layout (cfg : Config) (x : Inputs) :
    invalidMask cfg x em4x05Layout = Spec.markIf 0 (rate6Enc x.pDiv).isNone
      ||| Spec.markIf 1 (mod4305Enc x.pMod).isNone ||| Spec.markIf 2 (pskEnc x.pPsk).isNone
      ||| Spec.markIf 3 (nbEnc cfg x.pNblocks).isNone := by
  simp [em4x05Layout, invalidMask_cons, codeOfInput, BitVec.or_assoc]

/-- The register value of an EM4x05 encode: each code at its written-out bit position (R180). -/
theorem assemble_em4x05Layout {cfg : Config} {x : Inputs} {div : BitVec 6} {mod : BitVec 4} {psk : BitVec 2}
    {nb : BitVec 4} (hdiv : rate6Enc x.pDiv = some div) (hmod : mod4305Enc x.pMod = some mod)
    (hpsk : pskEnc x.pPsk = some psk) (hnb : nbEnc cfg x.pNblocks = some nb) :
    assemble cfg x em4x05Layout = zext div ||| zext mod <<< 6 ||| zext psk <<< 10 ||| zext nb <<< 14
      ||| Spec.flag x 4 <<< 18 ||| Spec.flag x 5 <<< 19 ||| Spec.flag x 6 <<< 20 ||| Spec.flag x 7 <<< 21
      ||| Spec.flag x 8 <<< 22 ||| Spec.flag x 9 <<< 23 ||| Spec.flag x 10 <<< 24 := by
  simp [em4x05Layout, assemble, codeOfInput, flagIn_eq_flag, hdiv, hmod, hpsk, hnb, BitVec.or_assoc]

/-- The four fields of an EM4x05 encode that can be invalid are not, exactly where the mask is 0 (R180). -/
theorem invalidMask_em4x05Layout_eq_zero_iff (cfg : Config) (x : Inputs) :
    invalidMask cfg x em4x05Layout = 0 ↔
      (∃ div, rate6Enc x.pDiv = some div) ∧ (∃ mod, mod4305Enc x.pMod = some mod)
        ∧ (∃ psk, pskEnc x.pPsk = some psk) ∧ ∃ nb, nbEnc cfg x.pNblocks = some nb := by
  simp [invalidMask_em4x05Layout, BitVec.or_eq_zero_iff, markIf_eq_zero_iff, Option.isSome_iff_exists, and_assoc]

/-- An encode over the EM4x05 layout gives the outputs of the pseudocode of R180. -/
theorem encodeRegister_em4x05Layout (cfg : Config) (x : Inputs) :
    encodeRegister cfg em4x05Layout x = Spec.em4x05Enc cfg x := by
  have hvalid := invalidMask_em4x05Layout_eq_zero_iff cfg x
  obtain ⟨h0, henc⟩ | ⟨h0, henc⟩ := encodeRegister_cases cfg em4x05Layout x
  · obtain ⟨⟨div, hdiv⟩, ⟨mod, hmod⟩, ⟨psk, hpsk⟩, nb, hnb⟩ := hvalid.1 h0
    rw [henc, assemble_em4x05Layout hdiv hmod hpsk hnb, Spec.em4x05Enc, hdiv, hmod, hpsk, hnb]
    rfl
  · rw [henc, invalidMask_em4x05Layout]
    unfold Spec.em4x05Enc
    split
    · next div mod psk nb hdiv hmod hpsk hnb =>
      exact absurd (hvalid.2 ⟨⟨_, hdiv⟩, ⟨_, hmod⟩, ⟨_, hpsk⟩, _, hnb⟩) h0
    · rfl

/-- Settles O19: the encode over the layout is the pseudocode. -/
theorem em4x05EncodeResult : Obligations.Em4x05EncodeResult := by
  intro s hlegal
  rw [exec_of_legal _ hlegal, ← encodeRegister_em4x05Layout s.config]
  rfl

-- The decode.

/-- A boolean field of a family is one bit wide (R64). -/
theorem width_eq_one_of_flag {cfg : Config} {fam : Family} {f : Field} (hf : f ∈ layoutOf cfg fam)
    (hcodec : f.codec = .flag) : f.width = 1 := by
  rw [width_eq_codecWidth cfg fam f hf, hcodec, codecWidth]

/-- The flags bus of the pseudocode of R181: the seven flags are taken from register bits 18 to 24, in the order of their ids
4 to 10. -/
theorem em4x05Dec_qFlags_getLsbD (cfg : Config) (r : Word) (k : Nat) :
    (Spec.em4x05Dec cfg r).qFlags.getLsbD k = (decide (4 ≤ k ∧ k ≤ 10) && r.getLsbD (14 + k)) := by
  have hbits : (Spec.em4x05Dec cfg r).qFlags.getLsbD k = (decide (4 = k) && r.getLsbD 18 || decide (5 = k) && r.getLsbD 19
      || decide (6 = k) && r.getLsbD 20 || decide (7 = k) && r.getLsbD 21 || decide (8 = k) && r.getLsbD 22
      || decide (9 = k) && r.getLsbD 23 || decide (10 = k) && r.getLsbD 24) := by
    simp [Spec.em4x05Dec, flagFrom_getLsbD]
  rw [hbits]
  by_cases hk : 4 ≤ k ∧ k ≤ 10
  · obtain ⟨hlo, hhi⟩ := hk
    interval_cases k <;> simp
  · have hne : 4 ≠ k ∧ 5 ≠ k ∧ 6 ≠ k ∧ 7 ≠ k ∧ 8 ≠ k ∧ 9 ≠ k ∧ 10 ≠ k := by omega
    simp [hk, hne]

/-- The error mask of an EM4x05 decode: the three fields that can be unrecognised (R181). -/
theorem decodeRegister_em4x05Layout_err (cfg : Config) (r : Word) :
    (decodeRegister cfg em4x05Layout r).err = (Spec.em4x05Dec cfg r).err := by
  rw [decodeRegister_err_eq_unrecognizedMask]
  simp [em4x05Layout, unrecognizedMask, readingOf, Spec.em4x05Dec, rate6Dec_eq, extractField_eq_zext, setWidth_zext,
    BitVec.or_assoc]

/-- Each field's port carries in the outputs of the pseudocode of R181 what the decode over the layout reads. -/
theorem outputValue_em4x05Dec (cfg : Config) (r : Word) :
    ∀ f ∈ em4x05Layout, outputValue (Spec.em4x05Dec cfg r) f = Spec.carried (readingOf cfg f (extractField f r)) := by
  intro f hf
  by_cases hcodec : f.codec = .flag
  · have hbit : (Spec.em4x05Dec cfg r).qFlags.getLsbD f.id = r.getLsbD f.shift := by
      rw [em4x05Dec_qFlags_getLsbD]
      revert f
      simp [em4x05Layout]
    exact outputValue_of_flag hcodec (width_eq_one_of_flag (cfg := cfg) (fam := .em4x05) hf hcodec) cfg hbit
  · have hmod : ∀ c, zext ((Spec.carried (mod4305Dec c)).setWidth 5) = Spec.carried (mod4305Dec c) := by decide
    revert f
    simp [em4x05Layout, outputValue, readingOf, Spec.em4x05Dec, extractField_eq_zext, setWidth_zext, hmod]

/-- A decode over the EM4x05 layout gives the outputs of the pseudocode of R181. -/
theorem decodeRegister_em4x05Layout (cfg : Config) (r : Word) :
    decodeRegister cfg em4x05Layout r = Spec.em4x05Dec cfg r := by
  refine decodeRegister_eq_of_ports (layoutOf_fieldsApart cfg .em4x05) rfl (decodeRegister_em4x05Layout_err cfg r) rfl
    (residueOf_em4x05Layout r).symm (outputValue_em4x05Dec cfg r) fun p hp => ?_
  cases p with
  | flag k =>
    have hne : 4 ≠ k ∧ 5 ≠ k ∧ 6 ≠ k ∧ 7 ≠ k ∧ 8 ≠ k ∧ 9 ≠ k ∧ 10 ≠ k := by
      simpa [layoutOf, em4x05Layout, portOf] using hp
    rw [portValue, flagIn_eq_zero_iff, em4x05Dec_qFlags_getLsbD, decide_eq_false (by omega), Bool.false_and]
  | maxblk => rfl
  | _ => simp [layoutOf, em4x05Layout, portOf] at hp

/-- Settles O20: the decode over the layout is the pseudocode. -/
theorem em4x05DecodeResult : Obligations.Em4x05DecodeResult := by
  intro s hlegal
  rw [exec_of_legal _ hlegal, ← decodeRegister_em4x05Layout s.config]
  rfl

end Sys2Proof.Machine
end

section
/-! PROOFS. One flag input changed (R64, R182): it reaches its own bit of an encode's register value and nothing else, in
every family; and the independence of the seven EM4x05 flags. -/

namespace Sys2Proof.Machine

/-- The inputs with one bit of the flags bus changed. -/
def toggleFlag (k : Nat) (x : Inputs) : Inputs := { x with pFlags := x.pFlags ^^^ (1#16 <<< k) }

/-- Changing a bit of the flags bus changes that bit and no other. -/
theorem toggleFlag_pFlags_getLsbD {k : Nat} (hk : k < 16) (x : Inputs) (j : Nat) :
    (toggleFlag k x).pFlags.getLsbD j = (x.pFlags.getLsbD j ^^ decide (k = j)) := by
  rw [toggleFlag, BitVec.getLsbD_xor, ← BitVec.twoPow_eq, BitVec.getLsbD_twoPow, decide_eq_true hk, Bool.true_and]

/-- Changing a flag leaves every other input port alone. -/
theorem inputPort_toggleFlag_of_ne {k : Nat} (hk : k < 16) {p : FieldPort} (hp : p ≠ .flag k) (x : Inputs) :
    inputPort (toggleFlag k x) p = inputPort x p := by
  cases p with
  | flag j =>
    have hne : k ≠ j := fun he => hp (congrArg FieldPort.flag he.symm)
    rw [inputPort, inputPort, flagIn_eq_ite, flagIn_eq_ite, toggleFlag_pFlags_getLsbD hk, decide_eq_false hne,
      Bool.xor_false]
  | _ => rfl

/-- A boolean field's code is its bit of the flags bus, whatever the bit is (R64). -/
theorem codeOfInput_of_flag {f : Field} (hcodec : f.codec = .flag) (cfg : Config) (x : Inputs) :
    codeOfInput cfg x f = some (flagIn x.pFlags f.id) := by
  rw [codeOfInput, hcodec]

/-- Changing a flag leaves the code of every other field of the family alone. -/
theorem codeOfInput_toggleFlag_of_ne {cfg : Config} {fam : Family} {f g : Field} (hf : f ∈ layoutOf cfg fam)
    (hg : g ∈ layoutOf cfg fam) (hne : g ≠ f) (x : Inputs) :
    codeOfInput cfg (toggleFlag f.id x) g = codeOfInput cfg x g := by
  have hapart := layoutOf_fieldsApart cfg fam
  have hport : portOf g ≠ .flag f.id := fun he => hne (hapart.eq_of_id_eq hg hf (eq_id_of_portOf_eq_flag he))
  refine codeOfInput_congr ?_
  rw [inputValue_eq_inputPort, inputValue_eq_inputPort, inputPort_toggleFlag_of_ne (hapart.id_lt f hf) hport]

section
variable {cfg : Config} {fam : Family} {f : Field} (hf : f ∈ layoutOf cfg fam) (hcodec : f.codec = .flag)
include hf hcodec

/-- Changing a flag leaves the error mask of an encode alone: a boolean field is never invalid (R182, R201). -/
theorem invalidMask_toggleFlag (x : Inputs) :
    invalidMask cfg (toggleFlag f.id x) (layoutOf cfg fam) = invalidMask cfg x (layoutOf cfg fam) := by
  have hnone : ∀ g ∈ layoutOf cfg fam,
      codeOfInput cfg (toggleFlag f.id x) g = none ↔ codeOfInput cfg x g = none := fun g hg => by
    by_cases hne : g = f
    · rw [hne, codeOfInput_of_flag hcodec, codeOfInput_of_flag hcodec]
      simp
    · rw [codeOfInput_toggleFlag_of_ne hf hg hne]
  refine BitVec.eq_of_getLsbD_eq fun k hk => ?_
  rw [Bool.eq_iff_iff, invalidMask_getLsbD _ _ _ k hk, invalidMask_getLsbD _ _ _ k hk]
  exact exists_congr fun g => and_congr_right fun hg => and_congr_right fun _ => hnone g hg

/-- The bit of a boolean field in an assembled register value is the field's input (R77, R182). -/
theorem assemble_getLsbD_of_flag (hcfg : cfg.legal = true) (x : Inputs) :
    (assemble cfg x (layoutOf cfg fam)).getLsbD f.shift = x.pFlags.getLsbD f.id := by
  have hext := extractField_assemble (layoutOf_wellFormed hcfg fam) (codesFit_layoutOf cfg fam x) hf
    (codeOfInput_of_flag hcodec cfg x)
  have hbit := congrArg (BitVec.getLsbD · 0) hext
  rw [extractField_getLsbD f _ 0 (by decide), width_eq_one_of_flag hf hcodec, flagIn_eq_ite] at hbit
  cases h : x.pFlags.getLsbD f.id <;> simpa [h] using hbit

/-- Changing a flag changes its own bit of the assembled register value and no other (R77, R182). -/
theorem assemble_toggleFlag (hcfg : cfg.legal = true) (x : Inputs) :
    assemble cfg (toggleFlag f.id x) (layoutOf cfg fam) = assemble cfg x (layoutOf cfg fam) ^^^ (1#32 <<< f.shift) := by
  have hapart := layoutOf_fieldsApart cfg fam
  have hw := width_eq_one_of_flag hf hcodec
  refine BitVec.eq_of_getLsbD_eq fun j hj => ?_
  rw [BitVec.getLsbD_xor, ← BitVec.twoPow_eq, BitVec.getLsbD_twoPow]
  by_cases hown : f.shift = j
  · subst hown
    rw [assemble_getLsbD_of_flag hf hcodec hcfg, assemble_getLsbD_of_flag hf hcodec hcfg,
      toggleFlag_pFlags_getLsbD (hapart.id_lt f hf)]
    simp [hj]
  · rw [decide_eq_false hown, Bool.and_false, Bool.xor_false, Bool.eq_iff_iff,
      assemble_getLsbD _ _ _ (codesFit_layoutOf cfg fam _) j hj,
      assemble_getLsbD _ _ _ (codesFit_layoutOf cfg fam _) j hj]
    refine exists_congr fun g => and_congr_right fun hg => exists_congr fun c => ?_
    rw [and_congr_left_iff]
    rintro ⟨hlo, hhi, -⟩
    rw [codeOfInput_toggleFlag_of_ne hf hg fun he => by subst he; omega]

/-- All that changing a flag does to an encode: where it has status OK, the flag's bit of the register value is its input and
changes with it; where it fails, nothing changes (R182, R201). -/
theorem encodeRegister_toggleFlag (hcfg : cfg.legal = true) (x : Inputs) {o : Outputs}
    (ho : o = encodeRegister cfg (layoutOf cfg fam) x) :
    (o.status = .ok →
        o.regOut.getLsbD f.shift = x.pFlags.getLsbD f.id
          ∧ encodeRegister cfg (layoutOf cfg fam) (toggleFlag f.id x)
            = { o with regOut := o.regOut ^^^ (1#32 <<< f.shift) })
      ∧ (o.status ≠ .ok → encodeRegister cfg (layoutOf cfg fam) (toggleFlag f.id x) = o) := by
  rw [encodeRegister, invalidMask_toggleFlag hf hcodec, assemble_toggleFlag hf hcodec hcfg]
  obtain ⟨h0, henc⟩ | ⟨h0, henc⟩ := encodeRegister_cases cfg (layoutOf cfg fam) x
  · rw [if_pos h0, ho, henc]
    exact ⟨fun _ => ⟨assemble_getLsbD_of_flag hf hcodec hcfg x, rfl⟩, fun hbad => absurd rfl hbad⟩
  · rw [if_neg h0, ho, henc]
    exact ⟨fun hok => (by cases hok), fun _ => rfl⟩

end

/-- The EM4x05 field with an id from 4 to 10 is a boolean field, 14 bits above its id (R67). -/
theorem exists_em4x05_flag {k : Nat} (hlo : 4 ≤ k) (hhi : k ≤ 10) :
    ∃ f ∈ em4x05Layout, f.codec = .flag ∧ f.id = k ∧ f.shift = 14 + k := by
  interval_cases k <;> simp [em4x05Layout]

/-- Settles O43: each of the seven ids is a boolean field of the layout, so that changing its input changes its own bit where
the encode has status OK; and the decode takes the flag from that bit. -/
theorem em4x05FlagIndependence : Obligations.Em4x05FlagIndependence := by
  refine ⟨fun s t t' o o' k hlo hhi hexec hread hexec' hread' => ?_, fun s t o k hlo hhi hexec hread => ?_⟩
  · obtain ⟨f, hf, hcodec, rfl, hshift⟩ := exists_em4x05_flag hlo hhi
    have ho : o = encodeRegister s.config em4x05Layout s.inp := readOutputs_exec hexec hread
    obtain rfl : o' = encodeRegister s.config em4x05Layout (toggleFlag f.id s.inp) := readOutputs_exec hexec' hread'
    rw [← hshift]
    exact encodeRegister_toggleFlag (fam := .em4x05) hf hcodec (exec_next hexec).1 s.inp ho
  · obtain rfl : o = decodeRegister s.config em4x05Layout s.inp.regIn := readOutputs_exec hexec hread
    rw [decodeRegister_em4x05Layout, em4x05Dec_qFlags_getLsbD, decide_eq_true ⟨hlo, hhi⟩, Bool.true_and]

end Sys2Proof.Machine
end

section
/-! PROOFS. The status and the error mask of an evaluation (R200, R205): which error each kind of operation reports, and that it
reports it exactly where the mask is not empty; and the obligations about the status values and the reserved operation. -/

namespace Sys2Proof.Machine

/-- Settles O22: each of the four codes of two bits has its status. -/
theorem statusCodesAsTabled : Obligations.StatusCodesAsTabled := by
  refine ⟨rfl, rfl, rfl, rfl, fun b => ?_⟩
  have hcodes : ∀ b : BitVec 2, b = 0 ∨ b = 1 ∨ b = 2 ∨ b = 3 := by decide
  obtain rfl | rfl | rfl | rfl := hcodes b
  · exact ⟨.ok, rfl⟩
  · exact ⟨.invalidField, rfl⟩
  · exact ⟨.unrecognizedField, rfl⟩
  · exact ⟨.illegalOp, rfl⟩

/-- Settles O47: the record view refuses the status of the reserved operation. -/
theorem reservedOpHasNoRecord : Obligations.ReservedOpHasNoRecord := by
  intro fam s t o hexec hread
  obtain rfl : o = raiseIllegalOp := readOutputs_exec hexec hread
  exact ⟨rfl, rfl⟩

/-- The error that each kind of operation reports (R201 to R203). -/
def errorStatus : Role → Status
  | .encode _ | .clkbit => .invalidField
  | .decode _ => .unrecognizedField
  | .reserved => .illegalOp

theorem errorStatus_ne_ok (role : Role) : errorStatus role ≠ .ok := by
  cases role <;> nofun

/-- Only the reserved operation reports ILLEGAL_OP as its error (R203). -/
theorem errorStatus_eq_illegalOp_iff (i : Instr) : errorStatus (roleOf i) = .illegalOp ↔ i = .reservedOp := by
  cases i <;> simp [errorStatus, roleOf]

/-- An encode completes with OK where its error mask is empty, and with INVALID_FIELD where it is not (R205). -/
theorem encodeRegister_status (cfg : Config) (l : Layout) (x : Inputs) :
    (encodeRegister cfg l x).status = if (encodeRegister cfg l x).err = 0 then .ok else .invalidField := by
  rw [encodeRegister_err]
  obtain ⟨h0, h⟩ | ⟨h0, h⟩ := encodeRegister_cases cfg l x
  · rw [h, if_pos h0]
    rfl
  · rw [h, if_neg h0]
    rfl

/-- CLKBIT completes with OK where its error mask is empty, and with INVALID_FIELD where it is not (R112). -/
theorem t55x7ClockBit_status (x : Inputs) :
    (t55x7ClockBit x).status = if (t55x7ClockBit x).err = 0 then .ok else .invalidField := by
  obtain ⟨w, h⟩ | h := t55x7ClockBit_cases x
  · rw [h]
    rfl
  · rw [h]
    rfl

/-- An operation other than the reserved one completes with OK where its error mask is empty, and with the error of its kind
where it is not (R205). -/
theorem evaluation_status {i : Instr} (hi : i ≠ .reservedOp) (cfg : Config) (x : Inputs) :
    (evaluation i cfg x).status = if (evaluation i cfg x).err = 0 then .ok else errorStatus (roleOf i) := by
  cases hrole : roleOf i with
  | encode fam =>
    obtain rfl := eq_encodeInstr_of_roleOf hrole
    rw [evaluation_encodeInstr]
    exact encodeRegister_status cfg _ x
  | decode fam =>
    obtain rfl := eq_decodeInstr_of_roleOf hrole
    rw [evaluation_decodeInstr]
    exact decodeRegister_status cfg _ x.regIn
  | clkbit =>
    obtain rfl : i = .t55x7Clkbit := roleOf_injective hrole
    exact t55x7ClockBit_status x
  | reserved => exact absurd (roleOf_injective hrole) hi

/-- An operation other than the reserved one reports OK exactly where its error mask is empty (R200). -/
theorem evaluation_status_ok_iff {i : Instr} (hi : i ≠ .reservedOp) (cfg : Config) (x : Inputs) :
    (evaluation i cfg x).status = .ok ↔ (evaluation i cfg x).err = 0 := by
  rw [evaluation_status hi]
  split
  · next h0 => exact iff_of_true rfl h0
  · next h0 => exact iff_of_false (errorStatus_ne_ok _) h0

/-- An error is reported exactly where it is the error of the operation's kind, and the error mask is not empty or the operation
is the reserved one (R201 to R203). -/
theorem evaluation_status_eq_iff {st : Status} (hst : st ≠ .ok) (i : Instr) (cfg : Config) (x : Inputs) :
    (evaluation i cfg x).status = st ↔
      errorStatus (roleOf i) = st ∧ ((evaluation i cfg x).err ≠ 0 ∨ i = .reservedOp) := by
  by_cases hi : i = .reservedOp
  · subst hi
    exact (and_iff_left (.inr rfl)).symm
  · rw [or_iff_left hi, evaluation_status hi]
    split
    · next h0 => exact iff_of_false hst.symm fun h => h.2 h0
    · next h0 => exact (and_iff_left h0).symm

/-- Settles O25: the status is OK or the error of the operation's kind. -/
theorem eachOperationReportsItsOwnStatuses : Obligations.EachOperationReportsItsOwnStatuses := by
  intro i s t o hexec hread
  obtain rfl := readOutputs_exec hexec hread
  have herror : ∀ {st}, st ≠ .ok → errorStatus (roleOf i) ≠ st → (evaluation i s.config s.inp).status ≠ st :=
    fun hst hne h => hne ((evaluation_status_eq_iff hst i _ _).1 h).1
  refine ⟨?_, fun hi => evaluation_status_ok_iff hi _ _, fun fam hrole => herror (by decide) ?_,
    fun fam hrole => herror (by decide) ?_, fun hrole => herror (by decide) ?_⟩
  · rw [evaluation_status_eq_iff (by decide), errorStatus_eq_illegalOp_iff]
    exact and_iff_left_of_imp .inr
  all_goals
    rw [hrole]
    nofun

end Sys2Proof.Machine
end

section
/-! PROOFS. The coherence of an evaluation's outputs (R24, R25, R64, R200 to R205), by the kind of the operation, and the
invariant of the machine. -/

namespace Sys2Proof.Machine

/-- No family has a field id above 10 (R64). -/
theorem idMask_and_highBits (fam : Family) : idMask fam &&& 0xF800 = 0 := by
  cases fam <;> rfl

theorem flagMask_and_highBits (fam : Family) : flagMask fam &&& 0xF800 = 0 := by
  cases fam <;> rfl

/-- Bits that are all in one mask have none in a mask apart from it. -/
theorem and_eq_zero_of_and_not_eq_zero {w : Nat} {b m n : BitVec w} (h : b &&& ~~~m = 0) (hmn : m &&& n = 0) :
    b &&& n = 0 := by
  rw [← and_eq_self_of_and_not_eq_zero h, BitVec.and_assoc, hmn]
  exact BitVec.and_zero

theorem outputsCoherent_okRegister (w : Word) : outputsCoherent (okRegister w) :=
  ⟨fun _ => rfl, nofun, nofun, nofun, fun _ => rfl, BitVec.zero_and, BitVec.zero_and⟩

theorem outputsCoherent_raiseInvalidField {mask : BitVec 16} (h0 : mask ≠ 0) (hids : mask &&& 0xF800 = 0) :
    outputsCoherent (raiseInvalidField mask) :=
  ⟨nofun, fun _ => ⟨h0, rfl⟩, nofun, nofun, fun hreg => absurd rfl hreg, hids, BitVec.zero_and⟩

theorem outputsCoherent_raiseIllegalOp : outputsCoherent raiseIllegalOp :=
  ⟨nofun, nofun, nofun, fun _ => rfl, fun hreg => absurd rfl hreg, BitVec.zero_and, BitVec.zero_and⟩

/-- The outputs of a family's encode are coherent: a register value, or the mask of its invalid fields. -/
theorem outputsCoherent_encodeRegister (cfg : Config) (fam : Family) (x : Inputs) :
    outputsCoherent (encodeRegister cfg (layoutOf cfg fam) x) := by
  have hids := and_eq_zero_of_and_not_eq_zero (encodeRegister_err_and_not_idMask cfg fam x) (idMask_and_highBits fam)
  rw [encodeRegister_err] at hids
  obtain ⟨-, h⟩ | ⟨h0, h⟩ := encodeRegister_cases cfg (layoutOf cfg fam) x
  · rw [h]
    exact outputsCoherent_okRegister _
  · rw [h]
    exact outputsCoherent_raiseInvalidField h0 hids

/-- The outputs of a family's decode are coherent: no register value, and OK or UNRECOGNIZED_FIELD by its error mask. -/
theorem outputsCoherent_decodeRegister (cfg : Config) (fam : Family) (r : Word) :
    outputsCoherent (decodeRegister cfg (layoutOf cfg fam) r) := by
  have hreg := decodeRegister_regOut cfg (layoutOf cfg fam) r
  have hids := and_eq_zero_of_and_not_eq_zero (decodeRegister_err_and_not_idMask cfg fam r) (idMask_and_highBits fam)
  have hflags :=
    and_eq_zero_of_and_not_eq_zero (decodeRegister_qFlags_and_not_flagMask cfg fam r) (flagMask_and_highBits fam)
  have hstatus := decodeRegister_status cfg (layoutOf cfg fam) r
  rw [outputsCoherent, hstatus]
  split
  · next h0 => exact ⟨fun _ => h0, nofun, nofun, nofun, fun hne => absurd hreg hne, hids, hflags⟩
  · next h0 => exact ⟨nofun, nofun, fun _ => ⟨h0, hreg⟩, nofun, fun hne => absurd hreg hne, hids, hflags⟩

/-- The outputs of CLKBIT are coherent: a register value, or the error bit of the BITRATE field. -/
theorem outputsCoherent_t55x7ClockBit (x : Inputs) : outputsCoherent (t55x7ClockBit x) := by
  obtain ⟨w, h⟩ | h := t55x7ClockBit_cases x
  · rw [h]
    exact outputsCoherent_okRegister w
  · rw [h]
    exact outputsCoherent_raiseInvalidField (by decide) (by decide)

/-- The outputs of every evaluation are coherent, whatever the parameters and the inputs are. -/
theorem outputsCoherent_evaluation (i : Instr) (cfg : Config) (x : Inputs) : outputsCoherent (evaluation i cfg x) := by
  cases hrole : roleOf i with
  | encode fam =>
    obtain rfl := eq_encodeInstr_of_roleOf hrole
    rw [evaluation_encodeInstr]
    exact outputsCoherent_encodeRegister cfg fam x
  | decode fam =>
    obtain rfl := eq_decodeInstr_of_roleOf hrole
    rw [evaluation_decodeInstr]
    exact outputsCoherent_decodeRegister cfg fam x.regIn
  | clkbit =>
    obtain rfl : i = .t55x7Clkbit := roleOf_injective hrole
    exact outputsCoherent_t55x7ClockBit x
  | reserved =>
    obtain rfl : i = .reservedOp := roleOf_injective hrole
    exact outputsCoherent_raiseIllegalOp

/-- An evaluation that completes keeps the invariant: it adds coherent outputs to the run. -/
theorem exec_preserves_machineInvariant {i : Instr} {s t : State} (hs : machineInvariant s) (h : exec i s = .next t) :
    machineInvariant t := by
  obtain ⟨hlegal, hresults⟩ := hs
  obtain ⟨-, rfl⟩ := exec_next h
  refine ⟨hlegal, fun o ho => ?_⟩
  obtain hold | hnew := List.mem_append.1 ho
  · exact hresults o hold
  · rw [List.mem_singleton.1 hnew]
    exact outputsCoherent_evaluation i s.config s.inp

/-- Settles O29: a step that answers a next state is an evaluation of the issued inputs, which adds coherent outputs. -/
theorem stepKeepsTheInvariant : Obligations.StepKeepsTheInvariant := by
  intro s t hs hstep
  obtain ⟨-, hended⟩ | ⟨x, rest, -, hexec⟩ := step_cases s
  · rw [hended] at hstep
    cases hstep
  · rw [hexec] at hstep
    exact exec_preserves_machineInvariant (s := { s with inp := x, program := rest }) hs hstep

end Sys2Proof.Machine
end

section
/-! PROOFS. The bits of a register value outside every field (R75, R204): they reach the residue of a decode and nothing else,
and an encode writes none of them. -/

namespace Sys2Proof.Machine

/-- A residue set on the outputs leaves every field's port alone. -/
@[simp] theorem portValue_withResidue (o : Outputs) (v : Word) (p : FieldPort) :
    portValue { o with qResidue := v } p = portValue o p := by
  cases p <;> rfl

/-- Register values with the same bits in the fields have the same extracted fields. -/
theorem extractField_eq_of_and_fieldMask {l : Layout} {r r' : Word} (h : r &&& fieldMask l = r' &&& fieldMask l) {f : Field}
    (hf : f ∈ l) : extractField f r = extractField f r' := by
  rw [← extractField_and_fieldMask hf r, h, extractField_and_fieldMask hf]

/-- A decode reads the extracted fields, and the rest of the register value is its residue only. -/
theorem decodeRegister_of_extractField_eq {cfg : Config} {l : Layout} (hl : FieldsApart l) {r r' : Word}
    (h : ∀ f ∈ l, extractField f r = extractField f r') :
    decodeRegister cfg l r = { decodeRegister cfg l r' with qResidue := residueOf l r } := by
  have hreading : ∀ f ∈ l, readingOf cfg f (extractField f r) = readingOf cfg f (extractField f r') :=
    fun f hf => by rw [h f hf]
  have herr : (decodeRegister cfg l r).err = (decodeRegister cfg l r').err := BitVec.eq_of_getLsbD_eq fun k hk => by
    rw [Bool.eq_iff_iff, decodeRegister_err cfg l r hk, decodeRegister_err cfg l r' hk]
    exact exists_congr fun f => and_congr_right fun hf => by rw [hreading f hf]
  refine decodeRegister_eq_of_ports hl (decodeRegister_status cfg l r') herr (decodeRegister_regOut cfg l r') rfl
    (fun f hf => ?_) fun p hp => ?_
  · rw [hreading f hf, outputValue_eq_portValue, portValue_withResidue, ← outputValue_eq_portValue,
      outputValue_decodeRegister hl r' hf]
  · rw [portValue_withResidue, portValue_decodeRegister_of_ne hl r' hp]

/-- The register value of a family's encode has no bit outside the fields (R204). -/
theorem residueOf_encodeRegister_regOut (cfg : Config) (fam : Family) (x : Inputs) :
    residueOf (layoutOf cfg fam) (encodeRegister cfg (layoutOf cfg fam) x).regOut = 0 := by
  obtain ⟨-, h⟩ | ⟨-, h⟩ := encodeRegister_cases cfg (layoutOf cfg fam) x
  · rw [h]
    exact residueOf_assemble (codesFit_layoutOf cfg fam x)
  · rw [h]
    exact BitVec.zero_and

/-- Settles O28: the two values have the same extracted fields; and an assembled register value has no residue. -/
theorem unassignedBitsReachOnlyTheResidue : Obligations.UnassignedBitsReachOnlyTheResidue := by
  refine ⟨fun i fam s t t' r o o' hrole hfields hexec hread hexec' hread' => ?_, fun i fam s t o hrole hexec hread => ?_⟩
  · obtain rfl := eq_decodeInstr_of_roleOf hrole
    obtain rfl := readOutputs_exec hexec hread
    obtain rfl := readOutputs_exec hexec' hread'
    rw [evaluation_decodeInstr, evaluation_decodeInstr]
    exact decodeRegister_of_extractField_eq (layoutOf_fieldsApart s.config fam)
      fun f hf => extractField_eq_of_and_fieldMask hfields hf
  · obtain rfl := eq_encodeInstr_of_roleOf hrole
    obtain rfl := readOutputs_exec hexec hread
    rw [evaluation_encodeInstr]
    exact residueOf_encodeRegister_regOut s.config fam s.inp

end Sys2Proof.Machine
end

section
/-! PROOFS. The causes of InvalidField and of UnrecognizedField (R201, R202): an error bit is set exactly where its cause holds,
and the error is reported exactly where some cause holds. -/

namespace Sys2Proof.Machine

-- The inputs that have no code.

/-- The table of a code gives none to exactly the values that have no row. -/
theorem codeOf_eq_none_iff {α β : Type} [DecidableEq α] (t : List (α × β)) (a : α) :
    codeOf t a = none ↔ a ∉ t.map Prod.fst := by
  rw [← exists_codeOf_iff, ← Option.ne_none_iff_exists', not_not]

theorem blk3Enc_eq_none_iff (v : Word) : blk3Enc v = none ↔ 7 < v.toNat := by
  rw [blk3Enc]
  split
  · next hle => exact iff_of_false nofun (Nat.not_lt.2 hle)
  · next hlt => exact iff_of_true rfl (Nat.not_le.1 hlt)

theorem nbEnc_eq_none_iff (cfg : Config) (n : Word) : nbEnc cfg n = none ↔ n.toNat < cfg.nbMin ∨ 11 < n.toNat := by
  rw [nbEnc]
  split
  · exact iff_of_false nofun (by omega)
  · exact iff_of_true rfl (by omega)

theorem pskEnc_eq_none_iff (x : Inputs) : pskEnc x.pPsk = none ↔ Spec.badPsk x := by
  rw [pskEnc, codeOf_eq_none_iff, Spec.badPsk]
  simp [pskTable]

theorem clkEnc_eq_none_iff (x : Inputs) : clkEnc x.pDiv = none ↔ Spec.badClock x := by
  rw [clkEnc, codeOf_eq_none_iff, Spec.badClock, ← List.mem_map_of_injective (BitVec.toNat_injective (n := 32))]
  rfl

/-- The inputs of a codec that no code has: the "causes" column of R201. -/
def invalidInput (cfg : Config) (x : Inputs) : Codec → Prop
  | .maxblk => 7 < x.pMaxblk.toNat
  | .psk => Spec.badPsk x
  | .modT55x7 => 10 < x.pMod.toNat
  | .modT5555 => x.pMod.toNat ∉ [0, 1, 2, 3, 4, 5, 8, 9]
  | .modEm4x05 => x.pMod.toNat ∉ [0, 1, 2, 3, 4, 5, 8, 9, 11]
  | .clock => Spec.badClock x
  | .rate6 => Spec.badRate x
  | .nblocks => x.pNblocks.toNat < cfg.nbMin ∨ 11 < x.pNblocks.toNat
  | .flag => False

/-- A field's input has no code exactly where it is an invalid input of the field's codec. -/
theorem codeOfInput_eq_none_iff (cfg : Config) (x : Inputs) (f : Field) :
    codeOfInput cfg x f = none ↔ invalidInput cfg x f.codec := by
  have h55 : ∀ m, mod55Enc m = none ↔ 10 < m.toNat := by decide
  have h5555 : ∀ m, mod5555Enc m = none ↔ m.toNat ∉ [0, 1, 2, 3, 4, 5, 8, 9] := by decide
  have h4305 : ∀ m, mod4305Enc m = none ↔ m.toNat ∉ [0, 1, 2, 3, 4, 5, 8, 9, 11] := by decide
  cases hc : f.codec <;> simp only [codeOfInput, invalidInput, hc, Option.map_eq_none_iff]
  case flag => exact iff_of_false nofun id
  case maxblk => exact blk3Enc_eq_none_iff _
  case psk => exact pskEnc_eq_none_iff x
  case modT55x7 => exact h55 _
  case modT5555 => exact h5555 _
  case modEm4x05 => exact h4305 _
  case clock => exact clkEnc_eq_none_iff x
  case rate6 => exact rate6Enc_eq_none_iff _
  case nblocks => exact nbEnc_eq_none_iff cfg _

/-- The cause table of R201 on a family's encode: the input of the field with that id has no code. -/
theorem invalidCause_iff (cfg : Config) (fam : Family) (x : Inputs) (k : Nat) :
    Spec.invalidCause cfg (encodeInstr fam) x k ↔ ∃ f ∈ layoutOf cfg fam, f.id = k ∧ codeOfInput cfg x f = none := by
  simp only [codeOfInput_eq_none_iff, eq_comm (b := k)]
  cases fam <;>
    simp [layoutOf, t55x7Layout, t5555Layout, em4x05Layout, encodeInstr, Spec.invalidCause, invalidInput]

-- The error bits.

/-- Every cause of InvalidField is one of an operation that reports it, on an error bit. -/
theorem errorStatus_of_invalidCause {cfg : Config} {i : Instr} {x : Inputs} {k : Nat} (h : Spec.invalidCause cfg i x k) :
    errorStatus (roleOf i) = .invalidField ∧ k < 16 := by
  cases i <;> simp only [Spec.invalidCause] at h <;> exact ⟨rfl, by omega⟩

/-- Every cause of UnrecognizedField is one of an operation that reports it, on an error bit. -/
theorem errorStatus_of_unrecognizedCause {cfg : Config} {i : Instr} {r : Word} {k : Nat}
    (h : Spec.unrecognizedCause cfg i r k) : errorStatus (roleOf i) = .unrecognizedField ∧ k < 16 := by
  cases i <;> simp only [Spec.unrecognizedCause] at h <;> exact ⟨rfl, by omega⟩

/-- An error bit of an operation that reports InvalidField is set exactly where its cause of R201 holds. -/
theorem evaluation_err_iff_invalidCause {i : Instr} (hi : errorStatus (roleOf i) = .invalidField) (cfg : Config) (x : Inputs)
    {k : Nat} (hk : k < 16) : (evaluation i cfg x).err.getLsbD k = true ↔ Spec.invalidCause cfg i x k := by
  cases hrole : roleOf i with
  | encode fam =>
    obtain rfl := eq_encodeInstr_of_roleOf hrole
    rw [evaluation_encodeInstr, encodeRegister_err, invalidMask_getLsbD cfg x _ k hk, invalidCause_iff]
  | clkbit =>
    obtain rfl : i = .t55x7Clkbit := roleOf_injective hrole
    rw [evaluation, Spec.invalidCause, ← clkEnc_eq_none_iff, t55x7ClockBit]
    cases clkEnc x.pDiv with
    | some c => exact iff_of_false (by simp [okRegister, Outputs.zero]) nofun
    | none =>
      rw [raiseInvalidField, ← BitVec.twoPow_eq, BitVec.getLsbD_twoPow]
      simp [eq_comm]
  | decode fam | reserved => simp [errorStatus, hrole] at hi

/-- An error bit of an operation that reports UnrecognizedField is set exactly where its cause of R202 holds. -/
theorem evaluation_err_iff_unrecognizedCause {i : Instr} (hi : errorStatus (roleOf i) = .unrecognizedField) (cfg : Config)
    (x : Inputs) {k : Nat} (hk : k < 16) :
    (evaluation i cfg x).err.getLsbD k = true ↔ Spec.unrecognizedCause cfg i x.regIn k := by
  cases hrole : roleOf i with
  | decode fam =>
    obtain rfl := eq_decodeInstr_of_roleOf hrole
    rw [evaluation_decodeInstr, decodeRegister_err cfg _ x.regIn hk, unrecognizedCause_iff]
    simp only [isUnknown_iff]
  | _ => simp [errorStatus, hrole] at hi

-- The two errors.

/-- A mask is not 0 exactly where a bit of it is set. -/
theorem ne_zero_iff_exists_getLsbD {w : Nat} (b : BitVec w) : b ≠ 0 ↔ ∃ k, k < w ∧ b.getLsbD k = true := by
  rw [ne_eq, BitVec.eq_of_getLsbD_eq_iff]
  simp

/-- An error with a cause table is reported exactly where a cause of the table holds. -/
theorem evaluation_status_iff_exists_cause {i : Instr} {cfg : Config} {x : Inputs} {st : Status} {cause : Nat → Prop}
    (hok : st ≠ .ok) (hillegal : st ≠ .illegalOp) (hcause : ∀ k, cause k → errorStatus (roleOf i) = st ∧ k < 16)
    (hbit : errorStatus (roleOf i) = st → ∀ k, k < 16 → ((evaluation i cfg x).err.getLsbD k = true ↔ cause k)) :
    (evaluation i cfg x).status = st ↔ ∃ k, cause k := by
  have hreserved : errorStatus (roleOf i) = st → i ≠ .reservedOp := fun hst hi =>
    hillegal (hst.symm.trans ((errorStatus_eq_illegalOp_iff i).2 hi))
  rw [evaluation_status_eq_iff hok, ne_zero_iff_exists_getLsbD]
  constructor
  · rintro ⟨hst, ⟨k, hk, hset⟩ | hi⟩
    · exact ⟨k, (hbit hst k hk).1 hset⟩
    · exact absurd hi (hreserved hst)
  · rintro ⟨k, h⟩
    obtain ⟨hst, hk⟩ := hcause k h
    exact ⟨hst, .inl ⟨k, hk, (hbit hst k hk).2 h⟩⟩

/-- The status is the error of the operation's kind, where it is not OK. -/
theorem errorStatus_of_evaluation_status {i : Instr} {cfg : Config} {x : Inputs} {st : Status} (hok : st ≠ .ok)
    (h : (evaluation i cfg x).status = st) : errorStatus (roleOf i) = st :=
  ((evaluation_status_eq_iff hok i cfg x).1 h).1

/-- Settles O23: the error mask of an encode and of CLKBIT has the bits whose causes hold, and a failed evaluation records its
mask and nothing else. -/
theorem invalidFieldCausesAndRecord : Obligations.InvalidFieldCausesAndRecord := by
  intro i s t o hexec hread
  obtain rfl := readOutputs_exec hexec hread
  have hbit := fun hi k (hk : k < 16) => evaluation_err_iff_invalidCause (i := i) hi s.config s.inp hk
  refine ⟨evaluation_status_iff_exists_cause (by decide) (by decide) (fun _ => errorStatus_of_invalidCause) hbit,
    fun hinvalid => ?_⟩
  obtain ⟨-, hrecord, -⟩ := outputsCoherent_evaluation i s.config s.inp
  refine ⟨hbit (errorStatus_of_evaluation_status (by decide) hinvalid), ?_⟩
  rw [(hrecord hinvalid).2]
  exact ⟨rfl, rfl, rfl, rfl, rfl, rfl, rfl, rfl⟩

/-- Settles O24: the error mask of a decode has the bits whose causes hold, and the record view of each field is the reading of
its code. -/
theorem unrecognizedFieldCausesAndRecord : Obligations.UnrecognizedFieldCausesAndRecord := by
  intro i s t o hexec hread
  obtain rfl := readOutputs_exec hexec hread
  have hbit := fun hi k (hk : k < 16) => evaluation_err_iff_unrecognizedCause (i := i) hi s.config s.inp hk
  refine ⟨evaluation_status_iff_exists_cause (by decide) (by decide) (fun _ => errorStatus_of_unrecognizedCause) hbit,
    fun hunrecognized => ?_⟩
  obtain ⟨-, -, hrecord, -⟩ := outputsCoherent_evaluation i s.config s.inp
  refine ⟨(hrecord hunrecognized).2, hbit (errorStatus_of_evaluation_status (by decide) hunrecognized), fun fam hrole => ?_⟩
  obtain rfl := eq_decodeInstr_of_roleOf hrole
  rw [evaluation_decodeInstr]
  exact ⟨decodeRegister_qResidue .., fun f hf =>
    (fieldReading_decodeRegister (layoutOf_fieldsApart s.config fam) s.inp.regIn hf).symm⟩

end Sys2Proof.Machine
end

section
/-! PROOFS. The obligations of spec/70_reset_and_hazards.md: the state before the first evaluation and its output ports (R230,
R231), the register value of a failed evaluation (R234), and the issuing of the caller's program (R239). -/

namespace Sys2Proof.Machine

-- The caller's program (R239).

/-- Settles O9: the state in the statement is that of a complete run of the state's own program. -/
theorem runPerformsEveryEvaluation : Obligations.RunPerformsEveryEvaluation :=
  fun s hlegal => run_of_program s.program hlegal rfl

/-- A step of a program that holds a next evaluation performs it. -/
theorem step_cons {s : State} {x : Inputs} {rest : List Inputs} (h : s.program = x :: rest) :
    step s = exec (decodeOp x.op) { s with inp := x, program := rest } := by
  rw [step, fetch_cons h]

/-- An operation placed as the caller's next evaluation is the one the next step performs, and the program loses its head. -/
theorem step_issueOp (s : State) (op : BitVec 3) :
    ∃ x, step (issueOp s op) = exec (decodeOp op) { s with inp := x, program := s.program.tail } := by
  obtain ⟨x, hop, hprog⟩ := issueOp_program s op
  refine ⟨x, ?_⟩
  rw [step_cons hprog, hop, issueOp_config, issueOp_results]

/-- Settles O3: a table word is placed as the operation that its low bits select. -/
theorem stepPerformsTheIssuedOperation : Obligations.StepPerformsTheIssuedOperation := by
  refine ⟨fun s x rest => step_cons, fun s nbits w i hword => ?_⟩
  obtain rfl : decodeOp (opOfTableWord nbits w) = i := Option.some.inj hword
  exact step_issueOp s (opOfTableWord nbits w)

/-- Settles O4: a step of a program that is not empty performs an operation, and no operation faults. -/
theorem runEndsExactlyWithTheProgram : Obligations.RunEndsExactlyWithTheProgram := by
  intro s
  obtain ⟨hprog, hended⟩ | ⟨x, rest, hprog, hexec⟩ := step_cases s
  · exact iff_of_true hended hprog
  · rw [hexec, hprog]
    exact iff_of_false (exec_ne_fault _ _ _) (List.cons_ne_nil x rest)

-- The output ports (R231, R234).

/-- Settles O11: each field as the reset state gives it. -/
theorem resetState : Obligations.ResetState :=
  ⟨State.reset_config, State.reset_program, State.reset_results, rfl⟩

/-- Reading the output ports is a fault exactly where no evaluation has left outputs (R231). -/
theorem readOutputs_eq_noEvaluation_iff (s : State) : readOutputs s = .error .noEvaluation ↔ s.results = [] := by
  rw [← List.getLast?_eq_none_iff, readOutputs]
  cases s.results.getLast? with
  | none => exact iff_of_true rfl rfl
  | some o => exact iff_of_false nofun nofun

/-- Settles O12: an evaluation adds its outputs as the last of the run, which are those the ports present. -/
theorem outputsExistOnlyAfterAnEvaluation : Obligations.OutputsExistOnlyAfterAnEvaluation := by
  refine ⟨(readOutputs_eq_noEvaluation_iff _).2 State.reset_results, readOutputs_eq_noEvaluation_iff, fun i s t h => ?_⟩
  obtain ⟨-, -, -, o, ho⟩ := evaluationFrame i s t h
  exact ⟨o, readOutputs_append ho, ho⟩

/-- Coherent outputs hold a register value other than 0 only where their status is OK. -/
theorem regOut_eq_zero_of_outputsCoherent {o : Outputs} (hcoherent : outputsCoherent o) (hstatus : o.status ≠ .ok) :
    o.regOut = 0 := by
  obtain ⟨-, -, -, -, hregister, -⟩ := hcoherent
  by_contra hne
  exact hstatus (congrArg Outputs.status (hregister hne))

/-- Settles O48: the outputs of every evaluation are coherent. -/
theorem failedEvaluationsGiveRegisterZero : Obligations.FailedEvaluationsGiveRegisterZero := by
  intro i s t o hexec hread hfailed
  obtain rfl := readOutputs_exec hexec hread
  exact regOut_eq_zero_of_outputsCoherent (outputsCoherent_evaluation i s.config s.inp) hfailed

end Sys2Proof.Machine
end
